-- ==== Sys2Proof/Word.lean ====
section
/-! DEFINITION. The widths the block works with (spec/00_scope.md rules R6, R8). -/

namespace Sys2Proof

/-- BYTE_W: 8 bits (R6). -/
abbrev Byte := BitVec 8

/-- CSUM_W: 16 bits (R6); also the width of a frame's Header, Length and Checksum fields (R62). -/
abbrev Half := BitVec 16

/-- HOST_W: the width of every host register and of the command word (R6, R56). -/
abbrev Word := BitVec 32

end Sys2Proof
end

