-- ==== Sys2Proof/Config.lean ====
section
/-! DEFINITION. The names the block fixes, its OPEN parameters and its free values. A free value is an `opaque`
constant: nothing in Lean can evaluate it, so a statement that mentions it holds for every value of it. -/

namespace Sys2Proof

/-- The Identifier variants, in the order in which R58 numbers them by IDSEL (spec/30_encoding.md). -/
inductive Identifier where
  | command
  | data
  | acknowledge
  | endOfData
  deriving DecidableEq, Repr

/-- The three bounded buffers of R35 (spec/10_state.md). -/
inductive Buf where
  | pl
  | tx
  | rx
  deriving DecidableEq, Repr

/-- The host's variables (R61). `fresh` are those the expansion of WAIT makes (DESIGN CHOICE, log entry 13). -/
inductive HostVar where
  | user (n : Nat)
  | fresh (n : Nat)
  deriving DecidableEq, Repr

/-- `draw()` of R10: the free value of width `w` that the `k`-th draw of a run yields (DESIGN CHOICE, log entry 3). -/
opaque Config.draw (w k : Nat) : BitVec w

/-- The `draw()` that cell `i` of buffer `b` was given at the `epoch`-th reset (R35, R128; DESIGN CHOICE, log entry 4). -/
opaque Config.resetCell (epoch : Nat) (b : Buf) (i : Nat) : Byte

/-- The OPEN parameter BASE as a page number: BASE is any 4 KiB-aligned host address (R6, R39; DESIGN CHOICE, log entry 6). -/
opaque Config.basePage : Nat

/-- BASE, the host address of offset 0 of the block's window (R6, R39). -/
def Config.base : Nat := 4096 * Config.basePage

/-- The host variable's value where the host program reads it before setting it: R61 states none (DESIGN CHOICE, log entry 10). -/
opaque Config.unsetVar : HostVar → Nat

/-- `a - b` of a host expression where a < b: R61 takes host values as unsigned and states no result (DESIGN CHOICE, log entry 9). -/
opaque Config.subBelowZero (a b : Nat) : Nat

end Sys2Proof
end

