-- ==== Sys2Proof/Syntax.lean ====
section
/-! DEFINITION. The ten commands of the block, one constructor per row of spec/opcode_table.json
(spec/30_encoding.md rules R56 to R59). -/

namespace Sys2Proof

/-- A command with its operands: `b` is the BYTE operand, `id` what IDSEL selects (R57, R58, R59). Each operand's type
holds exactly the values its field can encode, so every term is a legal command. -/
inductive Instr where
  | nop
  | csumClear
  | csumFeed (b : Byte)
  | plClear
  | plAppend (b : Byte)
  | encode (id : Identifier) (b : Byte)
  | rxClear
  | rxAppend (b : Byte)
  | decode
  | txClear
  deriving DecidableEq, Repr

end Sys2Proof
end

