-- ==== Sys2Proof/Machine/HostSyntax.lean ====
section
/-! DEFINITION. The syntax of host programs (spec/30_encoding.md rule R61): the statements the HOST agent executes, and
the source notation with the pseudo-instructions WAIT, ISSUE and REPEAT that expands to them. -/

namespace Sys2Proof.Machine

/-- A host label. `fresh` are those the expansion of WAIT makes (R61). -/
inductive HostLabel where
  | user (n : Nat)
  | fresh (n : Nat)
  deriving DecidableEq, Repr

/-- The names of the register map, R17 (spec/10_state.md). -/
inductive Reg where
  | cmd
  | status
  | ctrl
  | txAddr
  | expAddr
  | csumAcc
  | plLen
  | txLen
  | txCsum
  | rxLen
  | rxId
  | rxAddr
  | rxFlen
  | rxCode
  | rxDlen
  | rxCsum
  | caps
  deriving DecidableEq, Repr

/-- Host expressions: host variables, integer literals (a register name stands for its offset) and
`+ - * << >> & |` on unbounded unsigned integers (R61). -/
inductive HostExpr where
  | lit (n : Nat)
  | off (r : Reg)
  | var (v : HostVar)
  | add (a b : HostExpr)
  | sub (a b : HostExpr)
  | mul (a b : HostExpr)
  | shl (a b : HostExpr)
  | shr (a b : HostExpr)
  | and (a b : HostExpr)
  | or (a b : HostExpr)
  deriving DecidableEq, Repr

/-- One host statement. The two bus primitives of R10 carry the access width in bytes, so that the accesses R42 does
not admit can be written too; WR and RD of R61 are those of width 4. -/
inductive HostStmt where
  /-- `MemWrite(off, width, value)`; WR REG, v is the one of width 4 -/
  | memWrite (off : HostExpr) (width : Nat) (value : HostExpr)
  /-- `t <- MemRead(off, width)`; RD REG -> t is the one of width 4 -/
  | memRead (off : HostExpr) (width : Nat) (t : HostVar)
  /-- `BNZ t, mask, label` -/
  | bnz (t mask : HostExpr) (l : HostLabel)
  /-- `LET t = expr` -/
  | set (t : HostVar) (e : HostExpr)
  /-- `BLT a, b, label`, unsigned -/
  | blt (a b : HostExpr) (l : HostLabel)
  /-- `name:` on a line of its own -/
  | label (l : HostLabel)
  deriving DecidableEq, Repr

/-- A host program as it is written: each constructor is one statement followed by the rest of the program (R61). -/
inductive HostSource where
  | done
  | stmt (s : HostStmt) (rest : HostSource)
  | wait (rest : HostSource)
  | issue (i : Instr) (rest : HostSource)
  | times (n : Nat) (body rest : HostSource)
  deriving DecidableEq, Repr

end Sys2Proof.Machine
end

