-- ==== Sys2Proof/WellFormed.lean ====
section
/-! DEFINITION. What is well formed: a command word (spec/30_encoding.md rule R60, whose three cases make a word illegal)
and a host program (R61: every label a branch names stands in the program exactly once). Terms of `Instr` need no check of
their own: each operand's type is exactly its field. -/

namespace Sys2Proof

/-- R60 case (a): OP is one of the reserved values 0xA to 0xF. -/
def reservedOp (w : Word) : Bool := decide (10 ≤ (w.extractLsb' 0 4).toNat)

/-- R60 case (b): RSV0 (bits 7:6) or RSV1 (bits 31:16) is not 0. -/
def reservedBitsSet (w : Word) : Bool := w.extractLsb' 6 2 != 0#2 || w.extractLsb' 16 16 != 0#16

/-- R60 case (c), IDSEL: it is set for an OP other than 0x5. -/
def unusedIdsel (w : Word) : Bool := w.extractLsb' 4 2 != 0#2 && w.extractLsb' 0 4 != 5#4

/-- R60 case (c), BYTE: it is set for an OP of 0x0, 0x1, 0x3, 0x6, 0x8 or 0x9. -/
def unusedByte (w : Word) : Bool :=
  w.extractLsb' 8 8 != 0#8 && [0#4, 1#4, 3#4, 6#4, 8#4, 9#4].contains (w.extractLsb' 0 4)

/-- A command word is legal when none of R60's cases holds of it. -/
def legalWord (w : Word) : Bool := !(reservedOp w || reservedBitsSet w || unusedIdsel w || unusedByte w)

/-- The rows of the command map, R59: the word with its operand fields 0 (match) and the mask of its other bits. -/
def commandRows : List (Word × Word) :=
  [ (0x00000000#32, 0xFFFFFFFF#32), (0x00000001#32, 0xFFFFFFFF#32), (0x00000002#32, 0xFFFF00FF#32),
    (0x00000003#32, 0xFFFFFFFF#32), (0x00000004#32, 0xFFFF00FF#32), (0x00000005#32, 0xFFFF00CF#32),
    (0x00000006#32, 0xFFFFFFFF#32), (0x00000007#32, 0xFFFF00FF#32), (0x00000008#32, 0xFFFFFFFF#32),
    (0x00000009#32, 0xFFFFFFFF#32) ]

/-- The rows a word selects: those with `(w & mask) = match` (R59). -/
def rowsSelected (w : Word) : List (Word × Word) := commandRows.filter fun r => w &&& r.2 == r.1

namespace Machine

/-- The labels a program defines, in order. -/
def definedLabels (p : List HostStmt) : List HostLabel :=
  p.filterMap fun | .label l => some l | _ => none

/-- The labels a program's branches name. -/
def usedLabels (p : List HostStmt) : List HostLabel :=
  p.filterMap fun | .bnz _ _ l => some l | .blt _ _ l => some l | _ => none

/-- A host program is well formed when no label is defined twice and every branch names a defined label (R61). -/
def programWellFormed (p : List HostStmt) : Bool :=
  decide (definedLabels p).Nodup && (usedLabels p).all fun l => (definedLabels p).contains l

end Machine

end Sys2Proof
end

