-- ==== Sys2Proof/Decode.lean ====
section
/-! DEFINITION. The command word (spec/30_encoding.md rules R56 to R60): its fields, the decoder, total on every 32-bit
word and refusing by name, and after it the encoder, written from the same map. -/

namespace Sys2Proof

/-! ## The fields of a word (R56) -/

/-- OP, bits 3:0. -/
def opOf (w : Word) : BitVec 4 := w.extractLsb' 0 4

/-- IDSEL, bits 5:4. -/
def idselOf (w : Word) : BitVec 2 := w.extractLsb' 4 2

/-- RSV0, bits 7:6. -/
def rsv0Of (w : Word) : BitVec 2 := w.extractLsb' 6 2

/-- BYTE, bits 15:8. -/
def byteOf (w : Word) : Byte := w.extractLsb' 8 8

/-- RSV1, bits 31:16. -/
def rsv1Of (w : Word) : Half := w.extractLsb' 16 16

/-! ## Identifiers (R58) -/

/-- The identifier an IDSEL value selects. -/
def identifierOfSel (s : BitVec 2) : Identifier :=
  if s = 0#2 then .command else if s = 1#2 then .data else if s = 2#2 then .acknowledge else .endOfData

/-- The IDSEL code of an identifier. -/
def Identifier.sel : Identifier → BitVec 2
  | .command => 0#2
  | .data => 1#2
  | .acknowledge => 2#2
  | .endOfData => 3#2

/-- The byte on the wire. -/
def Identifier.byte : Identifier → Byte
  | .command => 0x01#8
  | .data => 0x02#8
  | .acknowledge => 0x07#8
  | .endOfData => 0x08#8

/-- The inverse map, defined on 0x01, 0x02, 0x07 and 0x08 only (R58, R63). -/
def identifierOfByte (b : Byte) : Option Identifier :=
  if b = 0x01#8 then some .command
  else if b = 0x02#8 then some .data
  else if b = 0x07#8 then some .acknowledge
  else if b = 0x08#8 then some .endOfData
  else none

/-! ## The decoder (R59, R60) -/

/-- Why a word is illegal: the three cases of R60. -/
inductive IllegalWord where
  /-- case (a): OP is 0xA to 0xF -/
  | reservedOp
  /-- case (b): RSV0 or RSV1 is not 0 -/
  | reservedBits
  /-- case (c): an operand field is set that the OP does not take -/
  | unusedOperand
  deriving DecidableEq, Repr

/-- A command without operands: IDSEL and BYTE must be 0. -/
def decodePlain (w : Word) (i : Instr) : Except IllegalWord Instr :=
  if idselOf w = 0#2 ∧ byteOf w = 0#8 then .ok i else .error .unusedOperand

/-- A command that takes BYTE only: IDSEL must be 0. -/
def decodeByte (w : Word) (i : Byte → Instr) : Except IllegalWord Instr :=
  if idselOf w = 0#2 then .ok (i (byteOf w)) else .error .unusedOperand

/-- The row of R59 that `w` selects, or the case of R60 that makes it illegal. -/
def decode (w : Word) : Except IllegalWord Instr :=
  if 10 ≤ (opOf w).toNat then .error .reservedOp
  else if rsv0Of w ≠ 0#2 ∨ rsv1Of w ≠ 0#16 then .error .reservedBits
  else if opOf w = 0x0#4 then decodePlain w .nop
  else if opOf w = 0x1#4 then decodePlain w .csumClear
  else if opOf w = 0x2#4 then decodeByte w .csumFeed
  else if opOf w = 0x3#4 then decodePlain w .plClear
  else if opOf w = 0x4#4 then decodeByte w .plAppend
  else if opOf w = 0x5#4 then .ok (.encode (identifierOfSel (idselOf w)) (byteOf w))
  else if opOf w = 0x6#4 then decodePlain w .rxClear
  else if opOf w = 0x7#4 then decodeByte w .rxAppend
  else if opOf w = 0x8#4 then decodePlain w .decode
  else decodePlain w .txClear

/-! ## The encoder (R56, R59) -/

/-- The word with the given OP, IDSEL and BYTE and with RSV0 = RSV1 = 0. -/
def assembleWord (op : BitVec 4) (s : BitVec 2) (b : Byte) : Word := 0#16 ++ b ++ 0#2 ++ s ++ op

/-- The word of a command, R59. -/
def encode : Instr → Word
  | .nop => assembleWord 0x0#4 0#2 0#8
  | .csumClear => assembleWord 0x1#4 0#2 0#8
  | .csumFeed b => assembleWord 0x2#4 0#2 b
  | .plClear => assembleWord 0x3#4 0#2 0#8
  | .plAppend b => assembleWord 0x4#4 0#2 b
  | .encode id b => assembleWord 0x5#4 id.sel b
  | .rxClear => assembleWord 0x6#4 0#2 0#8
  | .rxAppend b => assembleWord 0x7#4 0#2 b
  | .decode => assembleWord 0x8#4 0#2 0#8
  | .txClear => assembleWord 0x9#4 0#2 0#8

/-! ## The opcode table's numbering of an instruction's bits -/

/-- What the decoder reads from an instruction whose low `nbits` bits are those of `w`, every bit above them 0. The block's
instruction is one 32-bit word, so bit k of the table is bit k of the word (R56). -/
def decodeTableWord (nbits w : Nat) : Option Instr :=
  match decode (BitVec.ofNat 32 (w % 2 ^ nbits)) with
  | .ok i => some i
  | .error _ => none

end Sys2Proof
end

