-- ==== Sys2Proof/Machine/State.lean ====
section
/-! DEFINITION. The state of the machine as plain data (spec/10_state.md): the registers of R17, the buffer cells of R35,
the command latch of R36, and the model's own plain-data form of the host agent, the schedule and the free values. -/

namespace Sys2Proof.Machine

/-- The result codes of STATUS.ERR, R110 (spec/60_exceptions.md), in the order of their numbers 0 to 8. -/
inductive ResultCode where
  | ok
  | capacityExceeded
  | badHeader
  | unknownIdentifier
  | truncated
  | checksumMismatch
  | badLength
  | addressMismatch
  | illegalCommand
  deriving DecidableEq, Repr

/-- Whose turn a step is: the two agents of R13, and the reset input, whose assertion is a step of its own (R127). -/
inductive Turn where
  | host
  | engine
  | reset
  deriving DecidableEq, Repr

/-- The cells of a buffer that have been written since reset: (index, byte) pairs, indexes strictly rising. A cell that is
not listed holds the free value its last reset gave it (R35, R128; DESIGN CHOICE, log entry 4). -/
abbrev Memory := List Host.Cell

/-- A bounded buffer's cells and fill count (R78). `w` is the width of its fill-count register (R24, R25, R27). -/
structure Buffer (w : Nat) where
  cells : Memory
  len   : BitVec w
  deriving DecidableEq, Repr

/-- The HOST agent (R13, R61): its program, the index of its next statement and its variables. -/
structure HostAgent where
  program : List HostStmt
  pc      : Nat
  vars    : List (HostVar × Nat)
  deriving DecidableEq, Repr

/-- The machine. Each register holds its implemented bits; the other bits read 0 (R17). -/
structure State where
  /-- STATUS bit 0 (R19) -/
  busy : Bool
  /-- STATUS bit 1 (R19) -/
  done : Bool
  /-- STATUS bits 7:4, as the result code they number (R19, R110) -/
  err : ResultCode
  /-- STATUS bit 8, the overflow flag of PL (R19, R78) -/
  plOvf : Bool
  /-- STATUS bit 9, the overflow flag of RX (R19, R78) -/
  rxOvf : Bool
  /-- STATUS bit 10 (R19) -/
  cmdOvr : Bool
  /-- CTRL bit 0 (R20) -/
  addrCheckEn : Bool
  /-- TX_ADDR (R21) -/
  txAddr : Word
  /-- EXP_ADDR (R22) -/
  expAddr : Word
  /-- CSUM_ACC bits 15:0 (R23) -/
  csumAcc : Half
  /-- PL[0..31] and PL_LEN bits 5:0 (R24, R35) -/
  pl : Buffer 6
  /-- TX[0..255] and TX_LEN bits 8:0 (R25, R35) -/
  tx : Buffer 9
  /-- TX_CSUM bits 15:0 (R26) -/
  txCsum : Half
  /-- RX[0..255] and RX_LEN bits 8:0 (R27, R35) -/
  rx : Buffer 9
  /-- RX_ID bits 9:0: the IDSEL code above the identifier byte (R28) -/
  rxId : BitVec 10
  /-- RX_ADDR (R29) -/
  rxAddr : Word
  /-- RX_FLEN bits 15:0 (R30) -/
  rxFlen : Half
  /-- RX_CODE bits 7:0 (R31) -/
  rxCode : Byte
  /-- RX_DLEN bits 5:0 (R32) -/
  rxDlen : BitVec 6
  /-- RX_CSUM: CALC in bits 31:16, RECV in bits 15:0 (R33) -/
  rxCsum : Word
  /-- PENDING, the command latch (R36) -/
  pending : Option Word
  /-- the HOST agent (R13, R61); the model's own field, DESIGN CHOICE, log entry 2 -/
  host : HostAgent
  /-- whose turns come next (R52, R65); the model's own field, DESIGN CHOICE, log entry 1 -/
  schedule : List Turn
  /-- how many draws the run has used (R10); the model's own field, DESIGN CHOICE, log entry 3 -/
  draws : Nat
  /-- how many resets have been asserted (R128); the model's own field, DESIGN CHOICE, log entry 4 -/
  resets : Nat
  deriving DecidableEq, Repr

/-- Why a step stops with a fault. -/
inductive Fault where
  /-- A host access that R42 does not admit: a width other than 4, or an offset that is not a multiple of 4 or lies outside
  the window. Raised by the bus (R115, which makes it a fault of the model). Safe: no claim about such a run is proved. -/
  | busAccessFault (off n : Nat)
  /-- A host branch names a label its program does not define. Raised by the HOST agent (DESIGN CHOICE, log entry 12). Safe: R61 gives such
  a program no meaning. -/
  | hostLabelUndefined (l : HostLabel)
  deriving DecidableEq, Repr

/-- Why a step is refused. -/
inductive Refusal where
  /-- The command has no meaning in the model yet. Raised by an arm of `exec`. Safe: nothing is proved of such a run. -/
  | notModelled (mnemonic : String)
  deriving DecidableEq, Repr

/-- The machine right after reset (R128), with no host program loaded and nothing scheduled. -/
def State.reset : State where
  busy := false
  done := false
  err := .ok
  plOvf := false
  rxOvf := false
  cmdOvr := false
  addrCheckEn := false
  txAddr := 0xFFFFFFFF#32
  expAddr := 0xFFFFFFFF#32
  csumAcc := 0#16
  pl := { cells := [], len := 0#6 }
  tx := { cells := [], len := 0#9 }
  txCsum := 0#16
  rx := { cells := [], len := 0#9 }
  rxId := 0#10
  rxAddr := 0#32
  rxFlen := 0#16
  rxCode := 0#8
  rxDlen := 0#6
  rxCsum := 0#32
  pending := none
  host := { program := [], pc := 0, vars := [] }
  schedule := []
  draws := 0
  resets := 0

end Sys2Proof.Machine
end

