-- ==== Sys2Proof/Machine/Ops.lean ====
section
/-! DEFINITION. The named operations over the state: cell memory, the bounded buffers (spec/42_buffers.md), command issue and
completion (spec/40_command.md), the raising of an error (spec/00_scope.md rule R11), reset (spec/70_reset_and_hazards.md)
and the schedule. -/

namespace Sys2Proof.Machine

/-- The outcomes of a step of this machine. -/
abbrev Result := Host.Outcome State Fault Refusal

/-! ## Cell memory -/

/-- The byte written to cell `k`, if one has been since reset. -/
def Memory.read : Memory → Nat → Option Byte
  | [], _ => none
  | c :: m, k => if c.1 = k then some c.2 else Memory.read m k

/-- Cell `k` becomes `x`; the list stays in rising order of index. -/
def Memory.write : Memory → Nat → Byte → Memory
  | [], k, x => [(k, x)]
  | c :: m, k, x =>
    if k < c.1 then (k, x) :: c :: m
    else if k = c.1 then (k, x) :: m
    else c :: Memory.write m k x

/-- The bytes of a sequence are written to cells `k`, `k + 1`, … in order (R93). -/
def Memory.writeAll : Memory → Nat → List Byte → Memory
  | m, _, [] => m
  | m, k, x :: xs => Memory.writeAll (Memory.write m k x) (k + 1) xs

/-- The canonical form: indexes strictly rising. No byte is what an unlisted cell reads as (DESIGN CHOICE, log entry 4), so a listed byte may
have any value. -/
def Memory.wf (m : Memory) : Bool := decide ((m.map Prod.fst).Pairwise (· < ·))

/-- Every listed cell is one of the buffer's `cap` cells. -/
def Memory.within (cap : Nat) (m : Memory) : Bool := m.all fun c => decide (c.1 < cap)

/-! ## Bounded buffers -/

/-- PL_CAP and FRAME_CAP = RX_CAP (R6, R35). -/
def capacity : Buf → Nat
  | .pl => 32
  | .tx => 256
  | .rx => 256

/-- `bb_append` of R79: none where the buffer is full, the buffer with the byte at index N and N + 1 bytes otherwise. R78 has
N ≤ C, where this is R79's test N = C (DEDUCED, log entry 7). -/
def Buffer.append {w : Nat} (cap : Nat) (x : Byte) (b : Buffer w) : Option (Buffer w) :=
  if cap ≤ b.len.toNat then none
  else some { cells := Memory.write b.cells b.len.toNat x, len := BitVec.ofNat w (b.len.toNat + 1) }

/-- `bb_clear` of R80, on the fill count: the cells are not written. -/
def Buffer.clear {w : Nat} (b : Buffer w) : Buffer w := { b with len := 0#w }

/-- The cells of buffer `b`. -/
def State.cells (s : State) : Buf → Memory
  | .pl => s.pl.cells
  | .tx => s.tx.cells
  | .rx => s.rx.cells

/-- The fill count of buffer `b` (R78). -/
def State.fill (s : State) : Buf → Nat
  | .pl => s.pl.len.toNat
  | .tx => s.tx.len.toNat
  | .rx => s.rx.len.toNat

/-- PL[i], TX[i] and RX[i] of R10: the byte cell `i` of buffer `b` holds. A cell not written since reset holds the draw its
reset gave it (R35, R128). -/
def State.cell (s : State) (b : Buf) (i : Nat) : Byte :=
  match Memory.read (s.cells b) i with
  | some x => x
  | none => Config.resetCell s.resets b i

/-- The contents of a bounded buffer: the cells B[0..N) (R78). -/
def State.contents (s : State) (b : Buf) : List Byte := (List.range (s.fill b)).map (s.cell b)

/-! ## The command cycle -/

/-- `complete(code)` (R11, R66). -/
def State.complete (code : ResultCode) (s : State) : State :=
  { s with err := code, busy := false, done := true, pending := none }

/-- `raise Error(code)` (R11): the writes made before it are kept, and the command completes with the code. It is what this
block has for taking an exception (R118): nothing else is saved and control goes nowhere. -/
def State.raise (code : ResultCode) (s : State) : State := s.complete code

/-- Command issue: what a write of `w` to CMD does (R64). -/
def State.issue (w : Word) (s : State) : State :=
  match s.pending with
  | none => { s with pending := some w, busy := true, done := false }
  | some _ => { s with cmdOvr := true }

/-- What an illegal word does at its engine step (R60, R113). -/
def State.illegal (s : State) : State := s.complete .illegalCommand

/-! ## Reset and the schedule -/

/-- The reset input is asserted (R127, R128, R129): the block is as after reset, every cell with a fresh draw. The host agent
and what is scheduled are no state of the block and stay (DEDUCED, log entry 8). -/
def State.assertReset (s : State) : State :=
  { State.reset with host := s.host, schedule := s.schedule, draws := s.draws, resets := s.resets + 1 }

/-- Whose turn is next, and the state with that turn taken from the schedule. When nothing is scheduled, the engine has its
turn as soon as a command is pending, and the host otherwise (R65, R67; DESIGN CHOICE, log entry 1). -/
def State.takeTurn (s : State) : Turn × State :=
  match s.schedule with
  | t :: ts => (t, { s with schedule := ts })
  | [] =>
    match s.pending with
    | some _ => (.engine, s)
    | none => (.host, s)

end Sys2Proof.Machine
end

