-- ==== Sys2Proof/Machine/Buffers.lean ====
section
/-! DEFINITION. The commands of the bounded buffer manager (spec/42_buffers.md). -/

namespace Sys2Proof.Machine

/-- PL_CLEAR (R82). -/
def execPlClear (s : State) : Result := .next ({ s with pl := s.pl.clear, plOvf := false }.complete .ok)

/-- PL_APPEND b (R83, R79). -/
def execPlAppend (b : Byte) (s : State) : Result :=
  match s.pl.append (capacity .pl) b with
  | some pl => .next ({ s with pl := pl }.complete .ok)
  | none => .next ({ s with plOvf := true }.raise .capacityExceeded)

/-- RX_CLEAR (R84). -/
def execRxClear (s : State) : Result := .next ({ s with rx := s.rx.clear, rxOvf := false }.complete .ok)

/-- RX_APPEND b (R85, R79). -/
def execRxAppend (b : Byte) (s : State) : Result :=
  match s.rx.append (capacity .rx) b with
  | some rx => .next ({ s with rx := rx }.complete .ok)
  | none => .next ({ s with rxOvf := true }.raise .capacityExceeded)

/-- TX_CLEAR (R86). -/
def execTxClear (s : State) : Result := .next ({ s with tx := s.tx.clear }.complete .ok)

end Sys2Proof.Machine
end

