-- ==== Sys2Proof/Machine/Checksum.lean ====
section
/-! DEFINITION. The checksum engine (spec/41_checksum.md): the function csum16 and the streaming accumulator. -/

namespace Sys2Proof.Machine

/-- The sum of a byte sequence, without bound (R72). -/
def byteSum (bs : List Byte) : Nat := (bs.map fun b => b.toNat).sum

/-- `csum16(s)`: the sum of the bytes modulo 65536 (R72). -/
def csum16 (bs : List Byte) : Half := BitVec.ofNat 16 (byteSum bs)

/-- CSUM_CLEAR (R75). -/
def execCsumClear (s : State) : Result := .next ({ s with csumAcc := 0#16 }.complete .ok)

/-- CSUM_FEED b (R76): the byte, zero-extended, is added modulo 65536. -/
def execCsumFeed (b : Byte) (s : State) : Result :=
  .next ({ s with csumAcc := s.csumAcc + b.setWidth 16 }.complete .ok)

end Sys2Proof.Machine
end

