-- ==== Sys2Proof/Machine/Command.lean ====
section
/-! DEFINITION. NOP (spec/40_command.md rule R68). -/

namespace Sys2Proof.Machine

/-- NOP (R68): `complete(OK)`. -/
def execNop (s : State) : Result := .next (s.complete .ok)

end Sys2Proof.Machine
end

