-- ==== Sys2Proof/Machine/Operands.lean ====
section
/-! DEFINITION. The operand forms: byte sequences and the big-endian fields of a frame (spec/00_scope.md rule R9,
spec/20_memory.md rule R48), and the fixed values of R6. -/

namespace Sys2Proof.Machine

/-- HEADER (R6). -/
def headerValue : Half := 0xEF01#16

/-- LEN_MIN (R6): one instruction byte and two checksum bytes. -/
def lenMin : Nat := 3

/-- LEN_MAX (R6): lenMin with 32 data bytes. -/
def lenMax : Nat := 35

/-- `be16(v)`: most significant byte first (R9, R48). -/
def be16 (v : Half) : List Byte := [v.extractLsb' 8 8, v.extractLsb' 0 8]

/-- `be32(v)`: most significant byte first (R9, R48). -/
def be32 (v : Word) : List Byte :=
  [v.extractLsb' 24 8, v.extractLsb' 16 8, v.extractLsb' 8 8, v.extractLsb' 0 8]

/-- `unbe16(b0, b1) = b0*256 + b1` (R9). -/
def unbe16 (b0 b1 : Byte) : Half := b0 ++ b1

/-- `unbe32(b0, b1, b2, b3) = ((b0*256 + b1)*256 + b2)*256 + b3` (R9). -/
def unbe32 (b0 b1 b2 b3 : Byte) : Word := b0 ++ b1 ++ b2 ++ b3

/-- `s[i]`, for i below len(s) (R9); every use reads below the length. -/
def byteAt (s : List Byte) (i : Nat) : Byte := s.getD i 0#8

/-- `s[i..j)` (R9). -/
def slice (s : List Byte) (i j : Nat) : List Byte := (s.drop i).take (j - i)

end Sys2Proof.Machine
end

