-- ==== Sys2Proof/Machine/Decoder.lean ====
section
/-! DEFINITION. The packet frame decoder (spec/44_decoder.md). `rx` is RX[0..RX_LEN), so `rx.length` is the rules' n. Each
check answers the error it raises, if any. -/

namespace Sys2Proof.Machine

/-- The Address field of a received frame (R98). -/
def rxAddress (rx : List Byte) : Word := unbe32 (byteAt rx 2) (byteAt rx 3) (byteAt rx 4) (byteAt rx 5)

/-- The Length field of a received frame (R100). -/
def rxLength (rx : List Byte) : Half := unbe16 (byteAt rx 7) (byteAt rx 8)

/-- The Checksum field of a received frame (R101). -/
def rxRecv (rx : List Byte) : Half :=
  unbe16 (byteAt rx (7 + (rxLength rx).toNat)) (byteAt rx (8 + (rxLength rx).toNat))

/-- The checksum recomputed over identifier, length bytes and payload (R102). -/
def rxCalc (rx : List Byte) : Half := csum16 (slice rx 6 (7 + (rxLength rx).toNat))

/-- Step 1, header (R97). -/
def headerError (rx : List Byte) : Option ResultCode :=
  if rx.length < 2 then some .truncated
  else if byteAt rx 0 ≠ 0xEF#8 ∨ byteAt rx 1 ≠ 0x01#8 then some .badHeader
  else none

/-- Step 2, address (R98): compared only where the host enabled the check. -/
def addressError (check : Bool) (expected : Word) (rx : List Byte) : Option ResultCode :=
  if rx.length < 6 then some .truncated
  else if check = true ∧ rxAddress rx ≠ expected then some .addressMismatch
  else none

/-- Step 3, identifier (R99). -/
def identifierError (rx : List Byte) : Option ResultCode :=
  if rx.length < 7 then some .truncated
  else if identifierOfByte (byteAt rx 6) = none then some .unknownIdentifier
  else none

/-- Step 4, length (R100): BadLength is tested before the availability of the L bytes (R105). -/
def lengthError (rx : List Byte) : Option ResultCode :=
  if rx.length < 9 then some .truncated
  else if (rxLength rx).toNat < lenMin ∨ lenMax < (rxLength rx).toNat then some .badLength
  else if rx.length < 9 + (rxLength rx).toNat then some .truncated
  else none

/-- Step 6, checksum (R102). -/
def checksumError (rx : List Byte) : Option ResultCode :=
  if rxCalc rx ≠ rxRecv rx then some .checksumMismatch else none

/-- The first failing check in the order of R105, or none where the frame is accepted. -/
def frameError (check : Bool) (expected : Word) (rx : List Byte) : Option ResultCode :=
  (headerError rx).or ((addressError check expected rx).or
    ((identifierError rx).or ((lengthError rx).or (checksumError rx))))

/-- RX_ID for an identifier byte: `{s, idb}` with s = idsel_inverse(idb) (R99, R103). DECODE uses it on the four legal bytes
only. -/
def rxIdValue (idb : Byte) : BitVec 10 :=
  match identifierOfByte idb with
  | some id => id.sel ++ idb
  | none => 0#2 ++ idb

/-- Step 7, success (R103): the six result registers. -/
def State.recordFrame (rx : List Byte) (s : State) : State :=
  { s with
    rxId := rxIdValue (byteAt rx 6)
    rxAddr := rxAddress rx
    rxFlen := rxLength rx
    rxCode := byteAt rx 9
    rxDlen := BitVec.ofNat 6 ((rxLength rx).toNat - 3)
    rxCsum := rxCalc rx ++ rxRecv rx }

/-- DECODE (R104). -/
def execDecode (s : State) : Result :=
  match frameError s.addrCheckEn s.expAddr (s.contents .rx) with
  | some code => .next (s.raise code)
  | none => .next ((s.recordFrame (s.contents .rx)).complete .ok)

end Sys2Proof.Machine
end

