-- ==== Sys2Proof/Machine/Encoder.lean ====
section
/-! DEFINITION. The packet frame encoder (spec/43_encoder.md). -/

namespace Sys2Proof.Machine

/-- The Length field for `d` data bytes: L = 1 + d + 2 (R88). -/
def lengthField (d : Nat) : Half := BitVec.ofNat 16 (1 + d + 2)

/-- The bytes a frame's checksum covers: identifier, length, instruction byte, data (R73, R90). -/
def checksumInput (id : Identifier) (instr : Byte) (data : List Byte) : List Byte :=
  [id.byte] ++ be16 (lengthField data.length) ++ [instr] ++ data

/-- The checksum of a frame (R90). -/
def frameChecksum (id : Identifier) (instr : Byte) (data : List Byte) : Half :=
  csum16 (checksumInput id instr data)

/-- The frame in wire order (R91, R62). -/
def frameBytes (addr : Word) (id : Identifier) (instr : Byte) (data : List Byte) : List Byte :=
  be16 headerValue ++ be32 addr ++ checksumInput id instr data ++ be16 (frameChecksum id instr data)

/-- The size of a frame with `d` data bytes, computed before any byte is written (R89, R92). -/
def frameTotal (d : Nat) : Nat := 12 + d

/-- The commit of a successful ENCODE (R93): TX from index 0, TX_LEN and TX_CSUM. -/
def State.commitFrame (frame : List Byte) (total : Nat) (csum : Half) (s : State) : State :=
  { s with tx := { cells := Memory.writeAll s.tx.cells 0 frame, len := BitVec.ofNat 9 total }, txCsum := csum }

/-- ENCODE id, instr (R94): the checks of R89, both before any write, then the commit of R93. -/
def execEncode (id : Identifier) (instr : Byte) (s : State) : Result :=
  let data := s.contents .pl
  if s.plOvf = true then .next (s.raise .capacityExceeded)
  else if capacity .tx < frameTotal data.length then .next (s.raise .capacityExceeded)
  else
    .next ((s.commitFrame (frameBytes s.txAddr id instr data) (frameTotal data.length)
      (frameChecksum id instr data)).complete .ok)

end Sys2Proof.Machine
end

