-- ==== Sys2Proof/Machine/Dispatch.lean ====
section
/-! DEFINITION. The meaning of each command: the engine's rule of the row a word selects (spec/40_command.md rule R65). -/

namespace Sys2Proof.Machine

def exec (i : Instr) (s : State) : Host.Outcome State Fault Refusal :=
  match i with
  | .nop => Sys2Proof.Machine.execNop s
  | .csumClear => Sys2Proof.Machine.execCsumClear s
  | .csumFeed b => Sys2Proof.Machine.execCsumFeed b s
  | .plClear => Sys2Proof.Machine.execPlClear s
  | .plAppend b => Sys2Proof.Machine.execPlAppend b s
  | .encode id b => Sys2Proof.Machine.execEncode id b s
  | .rxClear => Sys2Proof.Machine.execRxClear s
  | .rxAppend b => Sys2Proof.Machine.execRxAppend b s
  | .decode => Sys2Proof.Machine.execDecode s
  | .txClear => Sys2Proof.Machine.execTxClear s

end Sys2Proof.Machine
end

