-- ==== Sys2Proof/Machine/Flags.lean ====
section
/-! DEFINITION. The block's flags: the result-code numbers (spec/60_exceptions.md rule R110) and the STATUS register
(spec/10_state.md rule R19). -/

namespace Sys2Proof.Machine

/-- The number of a result code (R110). -/
def ResultCode.number : ResultCode → BitVec 4
  | .ok => 0#4
  | .capacityExceeded => 1#4
  | .badHeader => 2#4
  | .unknownIdentifier => 3#4
  | .truncated => 4#4
  | .checksumMismatch => 5#4
  | .badLength => 6#4
  | .addressMismatch => 7#4
  | .illegalCommand => 8#4

/-- STATUS as the host reads it: CMD_OVR 10, RX_OVF 9, PL_OVF 8, ERR 7:4, DONE 1, BUSY 0, every other bit 0 (R19). While a
command is pending, CMD_OVR reads as it stands, after a discarded command and after a host's clear (R46 says both the
current value and the value before the pending command; DESIGN CHOICE, log entry 19). -/
def State.statusWord (s : State) : Word :=
  0#21 ++ BitVec.ofBool s.cmdOvr ++ BitVec.ofBool s.rxOvf ++ BitVec.ofBool s.plOvf ++ s.err.number ++ 0#2 ++
    BitVec.ofBool s.done ++ BitVec.ofBool s.busy

/-- A host write of `v` to STATUS: bits 1 and 10 are write-1-to-clear, every other bit is ignored (R19, R44). -/
def State.writeStatus (v : Word) (s : State) : State :=
  { s with done := s.done && !v.getLsbD 1, cmdOvr := s.cmdOvr && !v.getLsbD 10 }

end Sys2Proof.Machine
end

