-- ==== Sys2Proof/Machine/Bus.lean ====
section
/-! DEFINITION. The host bus (spec/20_memory.md): the register map, reads, writes, and the reads that answer a draw. -/

namespace Sys2Proof.Machine

/-! ## The register map (R17) -/

/-- A register's offset. -/
def Reg.offset : Reg → Nat
  | .cmd => 0x000
  | .status => 0x004
  | .ctrl => 0x008
  | .txAddr => 0x00C
  | .expAddr => 0x010
  | .csumAcc => 0x014
  | .plLen => 0x018
  | .txLen => 0x01C
  | .txCsum => 0x020
  | .rxLen => 0x024
  | .rxId => 0x028
  | .rxAddr => 0x02C
  | .rxFlen => 0x030
  | .rxCode => 0x034
  | .rxDlen => 0x038
  | .rxCsum => 0x03C
  | .caps => 0x040

/-- The registers, in the order of their offsets. -/
def allRegs : List Reg :=
  [.cmd, .status, .ctrl, .txAddr, .expAddr, .csumAcc, .plLen, .txLen, .txCsum, .rxLen, .rxId, .rxAddr, .rxFlen,
    .rxCode, .rxDlen, .rxCsum, .caps]

/-- The register at an offset, if there is one. -/
def regAt (off : Nat) : Option Reg := allRegs.find? fun r => r.offset == off

/-- The offset of a buffer's window (R17). -/
def windowBase : Buf → Nat
  | .tx => 0x400
  | .rx => 0x800
  | .pl => 0xC00

/-- The offset of the window word that shows cell `i` of buffer `b` (R17). -/
def windowOffset (b : Buf) (i : Nat) : Nat := windowBase b + 4 * i

/-- The buffer cell a window offset shows, if it lies in a window (R17, R43). -/
def windowAt (off : Nat) : Option (Buf × Nat) :=
  if 0x400 ≤ off ∧ off ≤ 0x7FC then some (.tx, (off - 0x400) / 4)
  else if 0x800 ≤ off ∧ off ≤ 0xBFC then some (.rx, (off - 0x800) / 4)
  else if 0xC00 ≤ off ∧ off ≤ 0xC7C then some (.pl, (off - 0xC00) / 4)
  else none

/-- CAPS: FRAME_CAP = 256 above PL_CAP = 32 (R34). -/
def capsWord : Word := 0x01000020#32

/-- A register's value as the host reads it, reserved bits 0 (R18 to R34). STATUS is its current value, CMD_OVR included, also
while a command is pending (R46; DESIGN CHOICE, log entry 19). -/
def State.regValue (s : State) : Reg → Word
  | .cmd => 0#32
  | .status => s.statusWord
  | .ctrl => (BitVec.ofBool s.addrCheckEn).setWidth 32
  | .txAddr => s.txAddr
  | .expAddr => s.expAddr
  | .csumAcc => s.csumAcc.setWidth 32
  | .plLen => s.pl.len.setWidth 32
  | .txLen => s.tx.len.setWidth 32
  | .txCsum => s.txCsum.setWidth 32
  | .rxLen => s.rx.len.setWidth 32
  | .rxId => s.rxId.setWidth 32
  | .rxAddr => s.rxAddr
  | .rxFlen => s.rxFlen.setWidth 32
  | .rxCode => s.rxCode.setWidth 32
  | .rxDlen => s.rxDlen.setWidth 32
  | .rxCsum => s.rxCsum
  | .caps => capsWord

/-- How many bits of a register are not reserved (R18 to R34): the width of a draw of it (R46). For STATUS and CTRL, which no
draw is made of, the bits from 0 up to the highest field. -/
def Reg.width : Reg → Nat
  | .cmd => 0
  | .status => 11
  | .ctrl => 1
  | .txAddr => 32
  | .expAddr => 32
  | .csumAcc => 16
  | .plLen => 6
  | .txLen => 9
  | .txCsum => 16
  | .rxLen => 9
  | .rxId => 10
  | .rxAddr => 32
  | .rxFlen => 16
  | .rxCode => 8
  | .rxDlen => 6
  | .rxCsum => 32
  | .caps => 32

/-! ## What a pending command makes unreadable (R46) -/

/-- The registers in a command's write set (R46). -/
def writeSetRegs : Instr → List Reg
  | .nop => []
  | .csumClear => [.csumAcc]
  | .csumFeed _ => [.csumAcc]
  | .plClear => [.plLen]
  | .plAppend _ => [.plLen]
  | .encode _ _ => [.txLen, .txCsum]
  | .txClear => [.txLen]
  | .rxClear => [.rxLen]
  | .rxAppend _ => [.rxLen]
  | .decode => [.rxId, .rxAddr, .rxFlen, .rxCode, .rxDlen, .rxCsum]

/-- The buffers whose every window word is in a command's write set (R46). -/
def writeSetWindows : Instr → List Buf
  | .nop => []
  | .csumClear => []
  | .csumFeed _ => []
  | .plClear => [.pl]
  | .plAppend _ => [.pl]
  | .encode _ _ => [.tx]
  | .txClear => [.tx]
  | .rxClear => [.rx]
  | .rxAppend _ => [.rx]
  | .decode => []

/-- The legal command that is pending while BUSY = 1; an illegal word has an empty write set (R46). -/
def State.busyCommand (s : State) : Option Instr :=
  if s.busy = true then
    match s.pending with
    | some w =>
      match decode w with
      | .ok i => some i
      | .error _ => none
    | none => none
  else none

/-- A register read is a draw (R46). -/
def State.regHidden (s : State) (r : Reg) : Bool :=
  match s.busyCommand with
  | some i => (writeSetRegs i).contains r
  | none => false

/-- The window reads of a buffer are draws (R46). -/
def State.windowHidden (s : State) (b : Buf) : Bool :=
  match s.busyCommand with
  | some i => (writeSetWindows i).contains b
  | none => false

/-! ## Accesses -/

/-- What a read answers: a value the state determines, or a draw of a width, its upper bits 0. -/
inductive ReadValue where
  | word (v : Word)
  | draw (width : Nat)
  deriving DecidableEq, Repr

/-- An access is admitted: four bytes wide, aligned, inside the window (R42). -/
def admitted (off n : Nat) : Bool := decide (n = 4 ∧ off % 4 = 0 ∧ off ≤ 0xFFC)

/-- A window read of cell `i` of buffer `b` (R45, R46). -/
def State.windowRead (s : State) (b : Buf) (i : Nat) : ReadValue :=
  if s.windowHidden b = true then .draw 8
  else if i < s.fill b then .word ((s.cell b i).setWidth 32)
  else .draw 8

/-- What an admitted read of an offset answers (R43, R45, R46). -/
def State.readWord (s : State) (off : Nat) : ReadValue :=
  match regAt off with
  | some r => if s.regHidden r = true then .draw r.width else .word (s.regValue r)
  | none =>
    match windowAt off with
    | some (b, i) => s.windowRead b i
    | none => .word 0#32

/-- The next draw, of width `w`, on the 32-bit bus; every draw is fresh (R10). -/
def State.takeDraw (w : Nat) (s : State) : Word × State :=
  ((Config.draw w s.draws).setWidth 32, { s with draws := s.draws + 1 })

/-- The bus value of a read; only a draw moves the draw counter (R51). -/
def State.resolve (v : ReadValue) (s : State) : Word × State :=
  match v with
  | .word x => (x, s)
  | .draw w => s.takeDraw w

/-- `MemRead(off, n)`: the value and the state after, or BusAccessFault (R42, R43, R115). -/
def State.memRead (off n : Nat) (s : State) : Except Fault (Word × State) :=
  if admitted off n = true then .ok (s.resolve (s.readWord off)) else .error (.busAccessFault off n)

/-- What an admitted write of `v` to an offset does (R44). -/
def State.writeWord (off : Nat) (v : Word) (s : State) : State :=
  match regAt off with
  | some .cmd => s.issue v
  | some .status => s.writeStatus v
  | some .ctrl => { s with addrCheckEn := v.getLsbD 0 }
  | some .txAddr => { s with txAddr := v }
  | some .expAddr => { s with expAddr := v }
  | _ => s

/-- `MemWrite(off, n, v)`: the state after, or BusAccessFault (R42, R44, R115). -/
def State.memWrite (off n : Nat) (v : Word) (s : State) : Except Fault State :=
  if admitted off n = true then .ok (s.writeWord off v) else .error (.busAccessFault off n)

/-! ## Where the window lies -/

/-- The host address of an offset (R39). -/
def hostAddress (off : Nat) : Nat := Config.base + off

/-- The offset at which a host address selects this block, if it lies in the 4 KiB window at BASE (R39, R40). -/
def offsetOfAddress (a : Nat) : Option Nat :=
  if Config.base ≤ a ∧ a < Config.base + 0x1000 then some (a - Config.base) else none

end Sys2Proof.Machine
end

