-- ==== Sys2Proof/Machine/HostPrograms.lean ====
section
/-! DEFINITION. The HOST agent (spec/10_state.md rule R13): the meaning of its statements, and the expansion of WAIT, ISSUE
and REPEAT (spec/30_encoding.md rule R61). -/

namespace Sys2Proof.Machine

/-! ## Variables and expressions -/

/-- A host variable's value; R61 states none for one that was never set (DESIGN CHOICE, log entry 10). -/
def readVar (vars : List (HostVar × Nat)) (v : HostVar) : Nat :=
  match vars.find? fun p => p.1 == v with
  | some p => p.2
  | none => Config.unsetVar v

/-- The variables after `v` was set. -/
def setVar (vars : List (HostVar × Nat)) (v : HostVar) (x : Nat) : List (HostVar × Nat) :=
  (v, x) :: vars.filter fun p => p.1 != v

/-- `a - b` on unsigned integers; R61 states no result below zero (DESIGN CHOICE, log entry 9). -/
def hostSub (a b : Nat) : Nat := if b ≤ a then a - b else Config.subBelowZero a b

/-- The value of a host expression: unbounded unsigned integers (R61). -/
def evalExpr (vars : List (HostVar × Nat)) : HostExpr → Nat
  | .lit n => n
  | .off r => r.offset
  | .var v => readVar vars v
  | .add a b => evalExpr vars a + evalExpr vars b
  | .sub a b => hostSub (evalExpr vars a) (evalExpr vars b)
  | .mul a b => evalExpr vars a * evalExpr vars b
  | .shl a b => evalExpr vars a <<< evalExpr vars b
  | .shr a b => evalExpr vars a >>> evalExpr vars b
  | .and a b => evalExpr vars a &&& evalExpr vars b
  | .or a b => evalExpr vars a ||| evalExpr vars b

/-! ## Statements -/

/-- `WR REG, v` (R61). -/
def wr (off value : HostExpr) : HostStmt := .memWrite off 4 value

/-- `RD REG -> t` (R61). -/
def rd (off : HostExpr) (t : HostVar) : HostStmt := .memRead off 4 t

/-- The host goes on to its next statement. -/
def State.advance (s : State) : State := { s with host := { s.host with pc := s.host.pc + 1 } }

/-- A host variable is set. -/
def State.setHostVar (v : HostVar) (x : Nat) (s : State) : State :=
  { s with host := { s.host with vars := setVar s.host.vars v x } }

/-- The value of a host expression at this moment. -/
def State.eval (e : HostExpr) (s : State) : Nat := evalExpr s.host.vars e

/-- The host goes to a label; a label the program does not define stops the model (DESIGN CHOICE, log entry 12). -/
def State.branch (l : HostLabel) (s : State) : Result :=
  match s.host.program.findIdx? fun x => x == HostStmt.label l with
  | some k => .next { s with host := { s.host with pc := k } }
  | none => .fault (.hostLabelUndefined l)

/-- The 32-bit word a host value puts on the bus; R61 has values of 32 bits, and states nothing of a larger one, for which
the word is a draw (DESIGN CHOICE, log entry 11). -/
def State.busWord (x : Nat) (s : State) : Word × State :=
  if x < 2 ^ 32 then (BitVec.ofNat 32 x, s) else s.takeDraw 32

/-- What one host statement does (R61). -/
def State.hostStmt (st : HostStmt) (s : State) : Result :=
  match st with
  | .memWrite off n e =>
    match (s.busWord (s.eval e)).2.memWrite (s.eval off) n (s.busWord (s.eval e)).1 with
    | .ok t => .next t.advance
    | .error f => .fault f
  | .memRead off n v =>
    match s.memRead (s.eval off) n with
    | .ok r => .next (r.2.setHostVar v r.1.toNat).advance
    | .error f => .fault f
  | .bnz t mask l => if s.eval t &&& s.eval mask ≠ 0 then s.branch l else .next s.advance
  | .set v e => .next (s.setHostVar v (s.eval e)).advance
  | .blt a b l => if s.eval a < s.eval b then s.branch l else .next s.advance
  | .label _ => .next s.advance

/-- The host's turn: its next statement, or nothing once it has executed its last (R71). -/
def State.hostTurn (s : State) : Result :=
  match s.host.program[s.host.pc]? with
  | some st => s.hostStmt st
  | none => .next s

/-! ## Pseudo-instructions (R61) -/

/-- WAIT with the `k`-th fresh label: `L: RD STATUS -> t` then `BNZ t, 0x1, L` (DESIGN CHOICE, log entry 13). -/
def waitCode (k : Nat) : List HostStmt :=
  [.label (.fresh k), rd (.off .status) (.fresh k), .bnz (.var (.fresh k)) (.lit 0x1) (.fresh k)]

/-- `WR CMD, word(cmd)`. -/
def issueCode (i : Instr) : HostStmt := wr (.off .cmd) (.lit (encode i).toNat)

/-- REPEAT: the body's code `n` times, each time with labels of its own. -/
def timesCode (body : Nat → List HostStmt × Nat) : Nat → Nat → List HostStmt × Nat
  | 0, k => ([], k)
  | n + 1, k => ((body k).1 ++ (timesCode body n (body k).2).1, (timesCode body n (body k).2).2)

/-- The statements a source program expands to, and the first unused number of a fresh label, from the first unused one. -/
def expand : HostSource → Nat → List HostStmt × Nat
  | .done, k => ([], k)
  | .stmt st r, k => (st :: (expand r k).1, (expand r k).2)
  | .wait r, k => (waitCode k ++ (expand r (k + 1)).1, (expand r (k + 1)).2)
  | .issue i r, k => (issueCode i :: waitCode k ++ (expand r (k + 1)).1, (expand r (k + 1)).2)
  | .times n body r, k =>
    ((timesCode (expand body) n k).1 ++ (expand r (timesCode (expand body) n k).2).1,
      (expand r (timesCode (expand body) n k).2).2)

/-- A source program as the host agent holds it. -/
def assembleProgram (src : HostSource) : List HostStmt := (expand src 0).1

/-- A source program is loaded into the host agent, which starts at its first statement with no variable set (DESIGN CHOICE, log entry 2). -/
def State.loadProgram (src : HostSource) (s : State) : State :=
  { s with host := { program := assembleProgram src, pc := 0, vars := [] } }

/-! ## The host's flow (spec/40_command.md rule R70) -/

/-- `PL.APP` of each byte in order, then `rest`. -/
def appendData : List Byte → HostSource → HostSource
  | [], rest => rest
  | b :: bs, rest => .issue (.plAppend b) (appendData bs rest)

/-- `RX.APP` of each byte in order, then `rest`. -/
def appendReceived : List Byte → HostSource → HostSource
  | [], rest => rest
  | b :: bs, rest => .issue (.rxAppend b) (appendReceived bs rest)

/-- One `RD` for each register, in order, into its variable; then `rest`. -/
def readRegisters : List (Reg × HostVar) → HostSource → HostSource
  | [], rest => rest
  | (r, v) :: rs, rest => .stmt (rd (.off r) v) (readRegisters rs rest)

/-- TX_LEN, as the transmit flow reads it. -/
def txCountVar : HostVar := .user 0

/-- The index of the TX_WIN word the transmit flow reads next. -/
def txIndexVar : HostVar := .user 1

/-- The TX_WIN word the transmit flow read last. -/
def txWordVar : HostVar := .user 2

/-- The bytes the transmit flow has read, as one number, the first the most significant: what the host has for the transport,
whose `write(bytes)` is no part of the model (R5, R13; DESIGN CHOICE, log entry 20). -/
def txBytesVar : HostVar := .user 3

/-- The reading of the frame in R70's transmit flow: TX_WIN words 0 to TX_LEN - 1 in order, bits 7:0 of each; then `rest`. It
is a loop at the labels `l` (its body) and `l + 1` (its test). -/
def readFrame (l : Nat) (rest : HostSource) : HostSource :=
  .stmt (rd (.off .txLen) txCountVar) <|
  .stmt (.set txIndexVar (.lit 0)) <|
  .stmt (.set txBytesVar (.lit 0)) <|
  .stmt (.blt (.lit 0) (.lit 1) (.user (l + 1))) <|
  .stmt (.label (.user l)) <|
  .stmt (rd (.add (.lit (windowBase .tx)) (.mul (.lit 4) (.var txIndexVar))) txWordVar) <|
  .stmt (.set txBytesVar (.or (.shl (.var txBytesVar) (.lit 8)) (.and (.var txWordVar) (.lit 0xFF)))) <|
  .stmt (.set txIndexVar (.add (.var txIndexVar) (.lit 1))) <|
  .stmt (.label (.user (l + 1))) <|
  .stmt (.blt (.var txIndexVar) (.var txCountVar) (.user l)) rest

/-- The transmit flow of R70: `PL.CLR`, one `PL.APP` per data byte, `ENC id, instr`, the reading of the frame, and `TX.CLR`
where the host chooses to issue it; then `rest`. `l` and `l + 1` are its labels. -/
def transmitSource (l : Nat) (id : Identifier) (instr : Byte) (data : List Byte) (txClear : Bool) (rest : HostSource) :
    HostSource :=
  .issue .plClear <| appendData data <| .issue (.encode id instr) <| readFrame l <|
    if txClear = true then .issue .txClear rest else rest

/-- The variables the receive flow reads the result into: STATUS, which holds the result code, and the six result registers
(R103; log entry 20). -/
def resultVars : List (Reg × HostVar) :=
  [(.status, .user 4), (.rxId, .user 5), (.rxAddr, .user 6), (.rxFlen, .user 7), (.rxCode, .user 8), (.rxDlen, .user 9),
    (.rxCsum, .user 10)]

/-- The receive flow of R70: `RX.CLR`, one `RX.APP` per received byte, `DEC`, the reading of the result registers; then
`rest`, in which a host re-reads and retries as its own policy chooses (R5). The bytes received are the transport's. -/
def receiveSource (received : List Byte) (rest : HostSource) : HostSource :=
  .issue .rxClear <| appendReceived received <| .issue .decode <| readRegisters resultVars rest

end Sys2Proof.Machine
end

