-- ==== Sys2Proof/Machine/Step.lean ====
section
/-! DEFINITION. One step of the machine: the turn of one agent, or the reset input (spec/40_command.md rules R64, R65;
spec/20_memory.md rule R52; spec/70_reset_and_hazards.md rule R127). -/

namespace Sys2Proof.Machine

/-- The engine's turn (R65): the pending word is decoded and its rule runs; an illegal word completes with IllegalCommand; with
nothing pending the engine has no step and its turn passes. -/
def State.engineTurn (s : State) : Result :=
  match s.pending with
  | none => .next s
  | some w =>
    match decode w with
    | .ok i => exec i s
    | .error _ => .next s.illegal

/-- One step: whoever's turn it is. -/
def step (s : State) : Host.Outcome State Fault Refusal :=
  match s.takeTurn with
  | (.host, t) => t.hostTurn
  | (.engine, t) => t.engineTurn
  | (.reset, t) => .next t.assertReset

/-- `s` with the command word of the given bits accepted into PENDING (R64), which is where the engine takes its next command
from (R16, R65), and the engine's turn next (DESIGN CHOICE, log entry 2). -/
def State.withFetchWord (s : State) (nbits w : Nat) : State :=
  { s with
    pending := some (BitVec.ofNat 32 (w % 2 ^ nbits))
    busy := true
    done := false
    schedule := .engine :: s.schedule }

end Sys2Proof.Machine
end

