-- ==== Sys2Proof/Safety.lean ====
section
/-! DEFINITION. The terms in which claims about the machine are made: what holds in every reachable state (spec/10_state.md
rule R38), when a run has ended and what is then observed (spec/40_command.md rule R71), and the groups of state that a
command's rule lists or leaves alone. -/

namespace Sys2Proof.Machine

/-! ## Invariants -/

/-- RECV of an RX_CSUM value, bits 15:0 (R33). -/
def csumRecv (v : Word) : Half := v.extractLsb' 0 16

/-- CALC of an RX_CSUM value, bits 31:16 (R33). -/
def csumCalc (v : Word) : Half := v.extractLsb' 16 16

/-- R38 (1) to (6): what holds in every reachable state. -/
structure State.Inv (s : State) : Prop where
  /-- (1) -/
  busy_iff_pending : s.busy = true ↔ s.pending ≠ none
  /-- (2) -/
  pl_bounded : s.fill .pl ≤ 32
  pl_overflow_full : s.plOvf = true → s.fill .pl = 32
  /-- (3) -/
  rx_bounded : s.fill .rx ≤ 256
  rx_overflow_full : s.rxOvf = true → s.fill .rx = 256
  /-- (4) -/
  tx_frame_size : s.fill .tx = 0 ∨ (12 ≤ s.fill .tx ∧ s.fill .tx ≤ 44)
  /-- (5) -/
  busy_not_done : s.busy = true → s.done = false
  /-- (6) -/
  rx_consistent : s.rxId ≠ 0#10 →
    s.rxFlen.toNat = s.rxDlen.toNat + 3 ∧ csumRecv s.rxCsum = csumCalc s.rxCsum

/-- The cell memories are canonical, list cells of their buffer only (R35), and list every cell below the fill count, so that
no command reads a cell that was not written since reset (R128). -/
structure State.CellsInv (s : State) : Prop where
  canonical : ∀ b, Memory.wf (s.cells b) = true
  within_capacity : ∀ b, Memory.within (capacity b) (s.cells b) = true
  fill_bounded : ∀ b, s.fill b ≤ capacity b
  contents_written : ∀ b i, i < s.fill b → Memory.read (s.cells b) i ≠ none

/-- What the decoder's result registers may hold (R28, R30, R32): nothing yet, or an identifier with its IDSEL code and a
legal length. -/
def State.ResultsLegal (s : State) : Prop :=
  s.rxId = 0#10 ∨
    ((∃ id : Identifier, s.rxId = id.sel ++ id.byte) ∧ 3 ≤ s.rxFlen.toNat ∧ s.rxFlen.toNat ≤ 35 ∧ s.rxDlen.toNat ≤ 32)

/-! ## Ends of runs -/

/-- The run has ended: the host has executed its last statement and no command is pending (R71). -/
def State.finished (s : State) : Bool :=
  decide (s.host.program.length ≤ s.host.pc) && s.pending.isNone && !s.busy

/-- What is observed at the end of a run: every register and every cell below its buffer's fill count (R71). -/
structure Observation where
  regs : List (Reg × Word)
  pl   : List Byte
  tx   : List Byte
  rx   : List Byte
  deriving DecidableEq, Repr

/-- The observation of R71. -/
def State.observe (s : State) : Observation where
  regs := allRegs.map fun r => (r, s.regValue r)
  pl := s.contents .pl
  tx := s.contents .tx
  rx := s.contents .rx

/-! ## What commands write and leave alone -/

/-- A command has completed with `code`: the fields `complete` writes (R66). -/
def State.Completed (code : ResultCode) (t : State) : Prop :=
  t.err = code ∧ t.busy = false ∧ t.done = true ∧ t.pending = none

/-- Every cell of buffer `b` and its fill count are unchanged. -/
def SameBuffer (b : Buf) (s t : State) : Prop := t.fill b = s.fill b ∧ ∀ i, t.cell b i = s.cell b i

/-- Every cell of buffer `b` is unchanged. -/
def SameCells (b : Buf) (s t : State) : Prop := ∀ i, t.cell b i = s.cell b i

/-- The sticky flags are unchanged (R19). -/
def SameFlags (s t : State) : Prop := t.plOvf = s.plOvf ∧ t.rxOvf = s.rxOvf ∧ t.cmdOvr = s.cmdOvr

/-- The registers only the host writes are unchanged (R20, R21, R22). -/
def SameConfig (s t : State) : Prop :=
  t.addrCheckEn = s.addrCheckEn ∧ t.txAddr = s.txAddr ∧ t.expAddr = s.expAddr

/-- The decoder's result registers are unchanged (R28 to R33). -/
def SameResults (s t : State) : Prop :=
  t.rxId = s.rxId ∧ t.rxAddr = s.rxAddr ∧ t.rxFlen = s.rxFlen ∧ t.rxCode = s.rxCode ∧ t.rxDlen = s.rxDlen ∧
    t.rxCsum = s.rxCsum

/-- What is no state of the block is unchanged: the host agent, the schedule, the draws used and the resets asserted. -/
def SameOutside (s t : State) : Prop :=
  t.host = s.host ∧ t.schedule = s.schedule ∧ t.draws = s.draws ∧ t.resets = s.resets

/-- Nothing of the state but STATUS.ERR, BUSY and DONE and PENDING has changed: what a failing command leaves (R111). -/
def OnlyCompletionChanged (s t : State) : Prop :=
  (∀ b, SameBuffer b s t) ∧ SameFlags s t ∧ SameConfig s t ∧ t.csumAcc = s.csumAcc ∧ t.txCsum = s.txCsum ∧
    SameResults s t ∧ SameOutside s t

/-! ## The frame in RX, cell by cell -/

/-- The 16-bit field at RX[i], RX[i+1] (R48). -/
def State.rxHalf (s : State) (i : Nat) : Half := unbe16 (s.cell .rx i) (s.cell .rx (i + 1))

/-- The Address field of the frame in RX (R98). -/
def State.frameAddress (s : State) : Word :=
  unbe32 (s.cell .rx 2) (s.cell .rx 3) (s.cell .rx 4) (s.cell .rx 5)

/-- The Length field of the frame in RX, as a number (R100). -/
def State.frameLength (s : State) : Nat := (s.rxHalf 7).toNat

/-- The Checksum field of the frame in RX (R101). -/
def State.frameRecv (s : State) : Half := s.rxHalf (7 + s.frameLength)

/-- The checksum of RX[6 .. 7 + L) (R102). -/
def State.frameCalc (s : State) : Half :=
  csum16 ((List.range (s.frameLength + 1)).map fun j => s.cell .rx (6 + j))

/-- Step 1 of DECODE finds no error (R97). -/
def HeaderPasses (s : State) : Prop := 2 ≤ s.fill .rx ∧ s.cell .rx 0 = 0xEF#8 ∧ s.cell .rx 1 = 0x01#8

/-- Step 2 of DECODE finds no error (R98). -/
def AddressPasses (s : State) : Prop := 6 ≤ s.fill .rx ∧ (s.addrCheckEn = true → s.frameAddress = s.expAddr)

/-- Step 3 of DECODE finds no error (R99). -/
def IdentifierPasses (s : State) : Prop :=
  7 ≤ s.fill .rx ∧
    (s.cell .rx 6 = 0x01#8 ∨ s.cell .rx 6 = 0x02#8 ∨ s.cell .rx 6 = 0x07#8 ∨ s.cell .rx 6 = 0x08#8)

/-- Step 4 of DECODE finds no error (R100). -/
def LengthPasses (s : State) : Prop :=
  9 ≤ s.fill .rx ∧ 3 ≤ s.frameLength ∧ s.frameLength ≤ 35 ∧ 9 + s.frameLength ≤ s.fill .rx

/-- Every check of DECODE passes (R97 to R102): RX begins with a frame that DECODE accepts. -/
def FrameAccepted (s : State) : Prop :=
  HeaderPasses s ∧ AddressPasses s ∧ IdentifierPasses s ∧ LengthPasses s ∧ s.frameCalc = s.frameRecv

/-- DECODE completes with `code`, and nothing but STATUS is written (R104). -/
def DecodeRaises (code : ResultCode) (s : State) : Prop :=
  ∃ t, exec .decode s = .next t ∧ t.Completed code ∧ OnlyCompletionChanged s t

/-- `t` is `s` with bit `k` of RX cell `i` flipped, RX_LEN and what else DECODE reads unchanged (R109). -/
def RxBitFlipped (i : Nat) (k : Fin 8) (s t : State) : Prop :=
  t.fill .rx = s.fill .rx ∧ t.cell .rx i = s.cell .rx i ^^^ BitVec.twoPow 8 k.val ∧
    (∀ j, j ≠ i → t.cell .rx j = s.cell .rx j) ∧ SameConfig s t

/-! ## Runs of commands and bus reads -/

/-- Commands executed one after another, each at its engine step. -/
def execAll : List Instr → State → Result
  | [], s => .next s
  | i :: is, s =>
    match exec i s with
    | .next t => execAll is t
    | .fault f => .fault f
    | .refused r => .refused r

/-- A host write of `w` to CMD is accepted at `t`, and ERR keeps its code (R64, R112). -/
def AcceptsNext (w : Word) (t : State) : Prop :=
  ∃ u, t.memWrite 0x000 4 w = .ok u ∧ u.pending = some w ∧ u.busy = true ∧ u.done = false ∧ u.err = t.err

/-- The engine's turn at `s` completes with IllegalCommand and changes nothing else (R113). -/
def EngineRefusesWord (s : State) : Prop :=
  ∃ t, s.engineTurn = .next t ∧ t.Completed .illegalCommand ∧ OnlyCompletionChanged s t

/-- The bytes that the CSUM_FEEDs of a list of commands feed, in order (R77). -/
def fedBytes : List Instr → List Byte
  | [] => []
  | .csumFeed b :: is => b :: fedBytes is
  | _ :: is => fedBytes is

/-- A read of offset `off` answers a fresh draw of `w` bits, its upper bits 0, and changes nothing of the block
(R45, R46, R51). -/
def ReadsDraw (s : State) (off w : Nat) : Prop :=
  s.memRead off 4 = .ok ((Config.draw w s.draws).setWidth 32, { s with draws := s.draws + 1 })

/-- A read of offset `off` answers `v` and changes nothing (R51). -/
def ReadsValue (s : State) (off : Nat) (v : Word) : Prop := s.memRead off 4 = .ok (v, s)

end Sys2Proof.Machine
end

