-- ==== Sys2Proof/Certificates/Slice0/Obligations.lean ====
section
/-! DEFINITION. The statements about the block, each from the numbered rules of spec/. -/

open Sys2Proof Sys2Proof.Machine

/-! ## Encoding (spec/30_encoding.md) -/

/-- R56 to R59: decoding the word of a command gives the command back, for every operand value. -/
def Obligations.DecodeOfEncodeIsTheCommand : Prop := ∀ i : Instr, decode (encode i) = .ok i

/-- R59: a word that decodes is the word of the command it decodes to, so no bit of it is ignored. -/
def Obligations.DecodedWordIsTheCommandsWord : Prop := ∀ (w : Word) (i : Instr), decode w = .ok i → encode i = w

/-- R60: the decoder takes exactly the words that none of R60's three cases makes illegal. -/
def Obligations.DecoderTakesExactlyLegalWords : Prop :=
  ∀ w : Word, (∃ i, decode w = .ok i) ↔ legalWord w = true

/-- R59: a legal word matches exactly one row of the map, the row of its OP; an illegal word matches none. -/
def Obligations.LegalWordMatchesExactlyItsRow : Prop :=
  ∀ w : Word, rowsSelected w = if legalWord w = true then (commandRows[(opOf w).toNat]?).toList else []

/-- R59, R60: words of the command map and of its examples, and illegal words of each case. -/
def Obligations.SampleWordsDecodeAsTheMapSays : Prop :=
  decode 0x00000000#32 = .ok .nop ∧ decode 0x00000001#32 = .ok .csumClear ∧
    decode 0x00000102#32 = .ok (.csumFeed 0x01#8) ∧ decode 0x00000003#32 = .ok .plClear ∧
    decode 0x0000AA04#32 = .ok (.plAppend 0xAA#8) ∧ decode 0x00003505#32 = .ok (.encode .command 0x35#8) ∧
    decode 0x0000FF35#32 = .ok (.encode .endOfData 0xFF#8) ∧ decode 0x00000006#32 = .ok .rxClear ∧
    decode 0x0000EF07#32 = .ok (.rxAppend 0xEF#8) ∧ decode 0x00000008#32 = .ok .decode ∧
    decode 0x00000009#32 = .ok .txClear ∧ decode 0x0000000A#32 = .error .reservedOp ∧
    decode 0x0000000F#32 = .error .reservedOp ∧
    decode 0x00003545#32 = .error .reservedBits ∧ decode 0x00010002#32 = .error .reservedBits ∧
    decode 0x00000101#32 = .error .unusedOperand ∧ decode 0x00000012#32 = .error .unusedOperand

/-- R58: IDSEL's table, and its inverse, which is defined on the four identifier bytes only. -/
def Obligations.IdentifierTableAndItsInverse : Prop :=
  (identifierOfSel 0#2).byte = 0x01#8 ∧ (identifierOfSel 1#2).byte = 0x02#8 ∧ (identifierOfSel 2#2).byte = 0x07#8 ∧
    (identifierOfSel 3#2).byte = 0x08#8 ∧ (∀ s : BitVec 2, (identifierOfSel s).sel = s) ∧
    ∀ (b : Byte) (s : BitVec 2), identifierOfByte b = some (identifierOfSel s) ↔ b = (identifierOfSel s).byte

/-! ## The command cycle (spec/40_command.md, spec/60_exceptions.md) -/

/-- R65: at the engine's turn, a pending word that decodes runs as its command, on the state as it stands at that moment, and
one that does not completes with IllegalCommand. When nothing is scheduled, a pending command's turn comes at once (the
model's choice, log entry 1). -/
def Obligations.EngineStepRunsThePendingCommand : Prop :=
  ∀ (s : State) (w : Word), s.pending = some w →
    (∀ i, decode w = .ok i →
      (∀ ts, s.schedule = .engine :: ts → step s = exec i { s with schedule := ts }) ∧
        (s.schedule = [] → step s = exec i s)) ∧
    ∀ e, decode w = .error e →
      (∀ ts, s.schedule = .engine :: ts → step s = .next (State.complete .illegalCommand { s with schedule := ts })) ∧
        (s.schedule = [] → step s = .next (s.complete .illegalCommand))

/-- R60, R113: an illegal word is accepted like any command, and at its engine step completes with IllegalCommand and no
other effect. -/
def Obligations.IllegalWordIsAcceptedAndCompletes : Prop :=
  ∀ (s : State) (w : Word) (ts : List Turn), legalWord w = false → s.pending = none → s.schedule = .engine :: ts →
    ∃ u t, s.memWrite 0x000 4 w = .ok u ∧ u.pending = some w ∧ step u = .next t ∧
      t.Completed .illegalCommand ∧ OnlyCompletionChanged { s with schedule := ts } t

/-- R64: a write to CMD is accepted when nothing is pending, and an illegal word so accepted fails at its engine step; with a
command pending the word is discarded and CMD_OVR is set. -/
def Obligations.CommandWriteIsAcceptedOrDiscarded : Prop :=
  ∀ (s : State) (w : Word),
    (s.pending = none → s.memWrite 0x000 4 w = .ok { s with pending := some w, busy := true, done := false }) ∧
      (∀ v, s.pending = some v → s.memWrite 0x000 4 w = .ok { s with cmdOvr := true }) ∧
      ∀ u, s.pending = none → legalWord w = false → s.memWrite 0x000 4 w = .ok u → EngineRefusesWord u

/-- R66: every command completes, with exactly one code, clearing BUSY, setting DONE and emptying PENDING. -/
def Obligations.EveryCommandCompletesOnce : Prop :=
  ∀ (i : Instr) (s : State), ∃ t, exec i s = .next t ∧ t.busy = false ∧ t.done = true ∧ t.pending = none

/-- R110: which result codes a command can complete with. -/
def Obligations.CommandsRaiseOnlyTheirOwnCodes : Prop :=
  ∀ (i : Instr) (s t : State), exec i s = .next t →
    t.err = .ok ∨ (t.err = .capacityExceeded ∧ ∃ b, i = .plAppend b ∨ i = .rxAppend b ∨ ∃ id, i = .encode id b) ∨
      (t.err ∈ [.badHeader, .unknownIdentifier, .truncated, .checksumMismatch, .badLength, .addressMismatch] ∧
        i = .decode)

/-- R112: after any completion, whatever its code, the block accepts the next command word: after a command's execution, and
after the engine's turn with a word pending, legal or illegal. -/
def Obligations.CompletedBlockAcceptsTheNextWord : Prop :=
  (∀ (i : Instr) (s t : State) (w : Word), exec i s = .next t → AcceptsNext w t) ∧
    ∀ (s t : State) (v w : Word), s.pending = some v → s.engineTurn = .next t → AcceptsNext w t

/-- R67: whatever the schedule (without a reset), a pending command has completed after at most one step more than the
schedule has turns, unless a host access faulted or a host branch had no label. That an unscheduled engine steps at once is
the model's choice (log entry 1). -/
def Obligations.PendingCommandCompletesUnderEverySchedule : Prop :=
  ∀ s : State, s.pending ≠ none → Turn.reset ∉ s.schedule →
    ∃ k, k ≤ s.schedule.length + 1 ∧
      ((∃ f, core.run k s = .fault f) ∨
        ∃ t, core.run k s = .next t ∧ t.pending = none ∧ t.busy = false ∧ t.done = true)

/-- R114: CMD_OVR, once set, is cleared by no command, and by no host write but one to STATUS with bit 10 set. -/
def Obligations.CommandOverrunStaysUntilCleared : Prop :=
  (∀ (i : Instr) (s t : State), exec i s = .next t → t.cmdOvr = s.cmdOvr) ∧
    ∀ (s t : State) (off : Nat) (v : Word), s.cmdOvr = true → s.memWrite off 4 v = .ok t →
      (t.cmdOvr = false ↔ off = 0x004 ∧ v.getLsbD 10 = true)

/-- R68: NOP is the word 0, completes with OK and does nothing else; any other word with OP = 0 is illegal and completes with
IllegalCommand at its engine step. -/
def Obligations.NopOnlyCompletes : Prop :=
  encode .nop = 0x00000000#32 ∧
    (∀ w : Word, opOf w = 0#4 → w ≠ 0#32 →
      legalWord w = false ∧ ∀ s : State, s.pending = some w → EngineRefusesWord s) ∧
    ∀ s : State, ∃ t, exec .nop s = .next t ∧ t.Completed .ok ∧ OnlyCompletionChanged s t

/-! ## Checksum engine (spec/41_checksum.md) -/

/-- R75: CSUM_CLEAR, the word 1, clears the accumulator and leaves everything else but STATUS alone. -/
def Obligations.CsumClearZeroesTheAccumulator : Prop :=
  encode .csumClear = 0x00000001#32 ∧ ∀ s : State, ∃ t, exec .csumClear s = .next t ∧ t.Completed .ok ∧ t.csumAcc = 0#16 ∧
    (∀ b, SameBuffer b s t) ∧ SameFlags s t ∧ SameConfig s t ∧ t.txCsum = s.txCsum ∧ SameResults s t ∧ SameOutside s t

/-- R76: CSUM_FEED adds the byte modulo 65536, always with OK, and leaves everything else but STATUS alone. -/
def Obligations.CsumFeedAddsTheByteModulo65536 : Prop :=
  ∀ (b : Byte) (s : State), encode (.csumFeed b) = 0x00000002#32 ||| b.setWidth 32 <<< 8 ∧ ∃ t, exec (.csumFeed b) s = .next t ∧ t.Completed .ok ∧
    t.csumAcc.toNat = (s.csumAcc.toNat + b.toNat) % 65536 ∧
    (∀ b, SameBuffer b s t) ∧ SameFlags s t ∧ SameConfig s t ∧ t.txCsum = s.txCsum ∧ SameResults s t ∧ SameOutside s t

/-- R77: from a clear accumulator, commands without a CSUM_CLEAR, however many and whatever else is among them, leave the
csum16 of the bytes that their CSUM_FEEDs fed. -/
def Obligations.StreamedBytesLeaveTheirChecksum : Prop :=
  ∀ (cmds : List Instr) (s : State), s.csumAcc = 0#16 → Instr.csumClear ∉ cmds →
    ∃ t, execAll cmds s = .next t ∧ t.csumAcc = csum16 (fedBytes cmds)

/-- R74: csum16 does not depend on the order of the bytes (a), adds over concatenation modulo 65536 (b), changes when one bit
of one byte is flipped (c), is 0 for a plain sum of 65536, which takes at least 258 bytes (d), and never wraps on the
checksum input of a frame (e). -/
def Obligations.ChecksumHasTheListedProperties : Prop :=
  (∀ bs cs : List Byte, bs.Perm cs → csum16 bs = csum16 cs) ∧
  (∀ bs cs : List Byte, (csum16 (bs ++ cs)).toNat = ((csum16 bs).toNat + (csum16 cs).toNat) % 65536) ∧
  (∀ (bs cs : List Byte) (b : Byte) (k : Fin 8),
    csum16 (bs ++ (b ^^^ BitVec.twoPow 8 k.val) :: cs) ≠ csum16 (bs ++ b :: cs)) ∧
  (∀ bs : List Byte, byteSum bs = 65536 → csum16 bs = 0#16 ∧ 258 ≤ bs.length) ∧
  (byteSum (List.replicate 257 0xFF#8 ++ [0x01#8]) = 65536) ∧
  ∀ (id : Identifier) (instr : Byte) (data : List Byte), data.length ≤ 32 →
    (checksumInput id instr data).length ≤ 36 ∧ byteSum (checksumInput id instr data) ≤ 9180 ∧
      (csum16 (checksumInput id instr data)).toNat = byteSum (checksumInput id instr data)

/-! ## Bounded buffers (spec/42_buffers.md) -/

/-- R82: PL_CLEAR, the word 3, empties PL and clears PL_OVF; no cell is written and nothing else but STATUS changes. No other
command clears PL_OVF. -/
def Obligations.PlClearEmptiesThePayload : Prop :=
  encode .plClear = 0x00000003#32 ∧
  (∀ (i : Instr) (s t : State), exec i s = .next t → s.plOvf = true → t.plOvf = false → i = .plClear) ∧
  ∀ s : State, ∃ t, exec .plClear s = .next t ∧ t.Completed .ok ∧ t.fill .pl = 0 ∧ t.plOvf = false ∧
    SameCells .pl s t ∧ SameBuffer .tx s t ∧ SameBuffer .rx s t ∧ t.rxOvf = s.rxOvf ∧ t.cmdOvr = s.cmdOvr ∧
    SameConfig s t ∧ t.csumAcc = s.csumAcc ∧ t.txCsum = s.txCsum ∧ SameResults s t ∧ SameOutside s t

/-- R83, R79: PL_APPEND stores the byte at index PL_LEN and counts it while PL_LEN < 32; at 32 it sets PL_OVF and completes
with CapacityExceeded, storing nothing. -/
def Obligations.PlAppendStoresOrOverflows : Prop :=
  ∀ (b : Byte) (s : State), encode (.plAppend b) = 0x00000004#32 ||| b.setWidth 32 <<< 8 ∧
    (s.fill .pl < 32 → ∃ t, exec (.plAppend b) s = .next t ∧ t.Completed .ok ∧ t.fill .pl = s.fill .pl + 1 ∧
      t.cell .pl (s.fill .pl) = b ∧ (∀ i, i ≠ s.fill .pl → t.cell .pl i = s.cell .pl i) ∧
      SameBuffer .tx s t ∧ SameBuffer .rx s t ∧ SameFlags s t ∧ SameConfig s t ∧ t.csumAcc = s.csumAcc ∧
      t.txCsum = s.txCsum ∧ SameResults s t ∧ SameOutside s t) ∧
    (s.fill .pl = 32 → ∃ t, exec (.plAppend b) s = .next t ∧ t.Completed .capacityExceeded ∧ t.plOvf = true ∧
      (∀ c, SameBuffer c s t) ∧ t.rxOvf = s.rxOvf ∧ t.cmdOvr = s.cmdOvr ∧ SameConfig s t ∧
      t.csumAcc = s.csumAcc ∧ t.txCsum = s.txCsum ∧ SameResults s t ∧ SameOutside s t)

/-- R84: RX_CLEAR, the word 6, empties RX and clears RX_OVF; the cells and the decoder's result registers are not written. -/
def Obligations.RxClearEmptiesTheReceiveBuffer : Prop :=
  encode .rxClear = 0x00000006#32 ∧ ∀ s : State, ∃ t, exec .rxClear s = .next t ∧ t.Completed .ok ∧ t.fill .rx = 0 ∧ t.rxOvf = false ∧
    SameCells .rx s t ∧ SameBuffer .tx s t ∧ SameBuffer .pl s t ∧ t.plOvf = s.plOvf ∧ t.cmdOvr = s.cmdOvr ∧
    SameConfig s t ∧ t.csumAcc = s.csumAcc ∧ t.txCsum = s.txCsum ∧ SameResults s t ∧ SameOutside s t

/-- R85, R79: RX_APPEND stores the byte at index RX_LEN and counts it while RX_LEN < 256; at 256 it sets RX_OVF and completes
with CapacityExceeded, storing nothing. -/
def Obligations.RxAppendStoresOrOverflows : Prop :=
  ∀ (b : Byte) (s : State), encode (.rxAppend b) = 0x00000007#32 ||| b.setWidth 32 <<< 8 ∧
    (s.fill .rx < 256 → ∃ t, exec (.rxAppend b) s = .next t ∧ t.Completed .ok ∧ t.fill .rx = s.fill .rx + 1 ∧
      t.cell .rx (s.fill .rx) = b ∧ (∀ i, i ≠ s.fill .rx → t.cell .rx i = s.cell .rx i) ∧
      SameBuffer .tx s t ∧ SameBuffer .pl s t ∧ SameFlags s t ∧ SameConfig s t ∧ t.csumAcc = s.csumAcc ∧
      t.txCsum = s.txCsum ∧ SameResults s t ∧ SameOutside s t) ∧
    (s.fill .rx = 256 → ∃ t, exec (.rxAppend b) s = .next t ∧ t.Completed .capacityExceeded ∧ t.rxOvf = true ∧
      (∀ c, SameBuffer c s t) ∧ t.plOvf = s.plOvf ∧ t.cmdOvr = s.cmdOvr ∧ SameConfig s t ∧
      t.csumAcc = s.csumAcc ∧ t.txCsum = s.txCsum ∧ SameResults s t ∧ SameOutside s t)

/-- R86: TX_CLEAR, the word 9, sets TX_LEN to 0; TX_CSUM and the cells are not written. -/
def Obligations.TxClearDiscardsTheFrame : Prop :=
  encode .txClear = 0x00000009#32 ∧ ∀ s : State, ∃ t, exec .txClear s = .next t ∧ t.Completed .ok ∧ t.fill .tx = 0 ∧ SameCells .tx s t ∧
    SameBuffer .pl s t ∧ SameBuffer .rx s t ∧ SameFlags s t ∧ SameConfig s t ∧ t.csumAcc = s.csumAcc ∧
    t.txCsum = s.txCsum ∧ SameResults s t ∧ SameOutside s t

/-- R82, R136: PL_OVF, once set, is cleared by no step but PL_CLEAR's engine step and a reset. -/
def Obligations.PayloadOverflowStaysUntilPlClear : Prop :=
  ∀ s t : State, s.plOvf = true → step s = .next t →
    t.plOvf = true ∨ s.takeTurn.1 = .reset ∨ (s.takeTurn.1 = .engine ∧ s.pending = some (encode .plClear))

/-! ## Encoder (spec/43_encoder.md) -/

/-- R94, R88 to R93: with PL_OVF = 0, ENCODE writes the frame of R91 to TX from index 0, TX_LEN and TX_CSUM, and nothing else
but STATUS; with PL_OVF = 1 it completes with CapacityExceeded and writes nothing but STATUS. -/
def Obligations.EncodeBuildsTheFrameOrFails : Prop :=
  ∀ (id : Identifier) (instr : Byte) (s : State),
    let d := s.fill .pl
    let len : Half := BitVec.ofNat 16 (3 + d)
    let csum := csum16 ([id.byte] ++ be16 len ++ [instr] ++ s.contents .pl)
    let frame := be16 0xEF01#16 ++ be32 s.txAddr ++ [id.byte] ++ be16 len ++ [instr] ++ s.contents .pl ++ be16 csum
    encode (.encode id instr) = 0x00000005#32 ||| id.sel.setWidth 32 <<< 4 ||| instr.setWidth 32 <<< 8 ∧
    (s.plOvf = false → ∃ t, exec (.encode id instr) s = .next t ∧ t.Completed .ok ∧ t.fill .tx = 12 + d ∧
      (∀ k, k < 12 + d → some (t.cell .tx k) = frame[k]?) ∧ (∀ k, 12 + d ≤ k → t.cell .tx k = s.cell .tx k) ∧
      t.txCsum = csum ∧ SameBuffer .pl s t ∧ SameBuffer .rx s t ∧ SameFlags s t ∧ SameConfig s t ∧
      t.csumAcc = s.csumAcc ∧ SameResults s t ∧ SameOutside s t) ∧
    (s.plOvf = true → ∃ t, exec (.encode id instr) s = .next t ∧ t.Completed .capacityExceeded ∧
      OnlyCompletionChanged s t)

/-- R62: the layout of a frame with d data bytes, offset by offset. -/
def Obligations.FrameHasTheWireLayout : Prop :=
  ∀ (addr : Word) (id : Identifier) (instr : Byte) (data : List Byte), data.length ≤ 32 →
    let f := frameBytes addr id instr data
    let d := data.length
    f.length = 12 + d ∧ slice f 0 2 = [0xEF#8, 0x01#8] ∧ slice f 2 6 = be32 addr ∧ slice f 6 7 = [id.byte] ∧
      slice f 7 9 = [0x00#8, BitVec.ofNat 8 (3 + d)] ∧ slice f 9 10 = [instr] ∧ slice f 10 (10 + d) = data ∧
      slice f (10 + d) (12 + d) = be16 (csum16 (slice f 6 (10 + d)))

/-- R96: the frame ENCODE leaves in TX satisfies the source's Packet invariants. -/
def Obligations.EncodedFrameMeetsPacketInvariants : Prop :=
  ∀ (id : Identifier) (instr : Byte) (s t : State), s.fill .pl ≤ 32 → exec (.encode id instr) s = .next t →
    t.err = .ok →
    let c := t.cell .tx
    let d := s.fill .pl
    c 0 = 0xEF#8 ∧ c 1 = 0x01#8 ∧ c 6 = id.byte ∧ (unbe16 (c 7) (c 8)).toNat = 1 + d + 2 ∧
      (unbe16 (c (10 + d)) (c (11 + d))).toNat =
        ((c 6).toNat + (c 7).toNat + (c 8).toNat + byteSum ((List.range (1 + d)).map fun j => c (9 + j))) % 65536

/-- R95: two ENCODEs with equal inputs have equal results. -/
def Obligations.EncodeDependsOnItsInputsOnly : Prop :=
  ∀ (id : Identifier) (instr : Byte) (s₁ s₂ t₁ t₂ : State),
    s₁.plOvf = s₂.plOvf → s₁.txAddr = s₂.txAddr → s₁.fill .pl = s₂.fill .pl →
    (∀ i, i < s₁.fill .pl → s₁.cell .pl i = s₂.cell .pl i) →
    exec (.encode id instr) s₁ = .next t₁ → exec (.encode id instr) s₂ = .next t₂ →
    t₁.err = t₂.err ∧
      (t₁.err = .ok → t₁.fill .tx = t₂.fill .tx ∧ t₁.txCsum = t₂.txCsum ∧
        ∀ k, k < t₁.fill .tx → t₁.cell .tx k = t₂.cell .tx k)

/-! ## Decoder (spec/44_decoder.md) -/

/-- R97: step 1, header. -/
def Obligations.DecodeChecksTheHeader : Prop :=
  ∀ s : State, (s.fill .rx < 2 → DecodeRaises .truncated s) ∧
    (2 ≤ s.fill .rx → s.cell .rx 0 ≠ 0xEF#8 ∨ s.cell .rx 1 ≠ 0x01#8 → DecodeRaises .badHeader s)

/-- R98: step 2, address, reached when the header is right. -/
def Obligations.DecodeChecksTheAddress : Prop :=
  ∀ s : State, HeaderPasses s →
    (s.fill .rx < 6 → DecodeRaises .truncated s) ∧
      (6 ≤ s.fill .rx → s.addrCheckEn = true → s.frameAddress ≠ s.expAddr → DecodeRaises .addressMismatch s)

/-- R99: step 3, identifier, reached when header and address are right. -/
def Obligations.DecodeChecksTheIdentifier : Prop :=
  ∀ s : State, HeaderPasses s → AddressPasses s →
    (s.fill .rx < 7 → DecodeRaises .truncated s) ∧
      (7 ≤ s.fill .rx → s.cell .rx 6 ∉ [0x01#8, 0x02#8, 0x07#8, 0x08#8] → DecodeRaises .unknownIdentifier s)

/-- R100: step 4, length: BadLength is tested before the availability of the L bytes. -/
def Obligations.DecodeChecksTheLength : Prop :=
  ∀ s : State, HeaderPasses s → AddressPasses s → IdentifierPasses s →
    (s.fill .rx < 9 → DecodeRaises .truncated s) ∧
      (9 ≤ s.fill .rx → s.frameLength < 3 ∨ 35 < s.frameLength → DecodeRaises .badLength s) ∧
      (9 ≤ s.fill .rx → 3 ≤ s.frameLength → s.frameLength ≤ 35 → s.fill .rx < 9 + s.frameLength →
        DecodeRaises .truncated s)

/-- R102: step 6, checksum, reached when every earlier step finds no error. -/
def Obligations.DecodeChecksTheChecksum : Prop :=
  ∀ s : State, HeaderPasses s → AddressPasses s → IdentifierPasses s → LengthPasses s →
    s.frameCalc ≠ s.frameRecv → DecodeRaises .checksumMismatch s

/-- R103, R104: a frame that passes every check is accepted: DECODE completes with OK, writes the six result registers, and
leaves RX, RX_LEN and everything else but STATUS alone. -/
def Obligations.DecodeRecordsAnAcceptedFrame : Prop :=
  ∀ s : State, FrameAccepted s →
    ∃ (t : State) (id : Identifier), exec .decode s = .next t ∧ t.Completed .ok ∧ id.byte = s.cell .rx 6 ∧
      t.rxId = id.sel ++ s.cell .rx 6 ∧ t.rxAddr = s.frameAddress ∧ t.rxFlen = s.rxHalf 7 ∧
      t.rxCode = s.cell .rx 9 ∧ t.rxDlen.toNat = s.frameLength - 3 ∧ csumCalc t.rxCsum = s.frameCalc ∧
      csumRecv t.rxCsum = s.frameRecv ∧ (∀ b, SameBuffer b s t) ∧ SameFlags s t ∧ SameConfig s t ∧
      t.csumAcc = s.csumAcc ∧ t.txCsum = s.txCsum ∧ SameOutside s t

/-- R106: bytes of RX after the frame change nothing of what DECODE answers. -/
def Obligations.DecodeIgnoresTrailingBytes : Prop :=
  ∀ s₁ s₂ t₁ t₂ : State, 9 + s₁.frameLength ≤ s₁.fill .rx → 9 + s₁.frameLength ≤ s₂.fill .rx →
    (∀ i, i < 9 + s₁.frameLength → s₁.cell .rx i = s₂.cell .rx i) → SameConfig s₁ s₂ → SameResults s₁ s₂ →
    exec .decode s₁ = .next t₁ → exec .decode s₂ = .next t₂ → t₁.err = t₂.err ∧ SameResults t₁ t₂

/-- R107: RX_OVF does not change DECODE, which leaves the flag as it was. -/
def Obligations.DecodeIgnoresReceiveOverflow : Prop :=
  ∀ (s : State) (v : Bool), ∃ t, exec .decode s = .next t ∧ t.rxOvf = s.rxOvf ∧
    exec .decode { s with rxOvf := v } = .next { t with rxOvf := v }

/-- R108: a frame that ENCODE built, appended to a cleared RX byte by byte, decodes with OK to what was encoded. -/
def Obligations.EncodedFrameDecodesToItsInputs : Prop :=
  ∀ (id : Identifier) (instr : Byte) (s : State), s.plOvf = false → s.fill .pl ≤ 32 →
    (s.addrCheckEn = false ∨ s.expAddr = s.txAddr) →
    ∃ s₁ s₂ t, exec (.encode id instr) s = .next s₁ ∧
      execAll (.rxClear :: (s₁.contents .tx).map .rxAppend) s₁ = .next s₂ ∧ exec .decode s₂ = .next t ∧
      t.err = .ok ∧ t.rxId = id.sel ++ id.byte ∧ t.rxCode = instr ∧ t.rxDlen.toNat = s.fill .pl ∧
      (∀ k, k < s.fill .pl → t.cell .rx (10 + k) = s.cell .pl k) ∧ t.rxAddr = s.txAddr ∧
      csumRecv t.rxCsum = t.txCsum ∧ csumCalc t.rxCsum = t.txCsum

/-- R109 (a), (b), (c), (e), (f): what DECODE reports of an accepted frame with one bit of its header, address, identifier or
length flipped. -/
def Obligations.FlippedHeadBitsAreReported : Prop :=
  ∀ (s u : State) (i : Nat) (k : Fin 8), FrameAccepted s → RxBitFlipped i k s u →
    (i < 2 → DecodeRaises .badHeader u) ∧
    (2 ≤ i → i < 6 → s.addrCheckEn = true → DecodeRaises .addressMismatch u) ∧
    (2 ≤ i → i < 6 → s.addrCheckEn = false →
      ∃ t, exec .decode u = .next t ∧ t.err = .ok ∧ t.rxAddr = u.frameAddress ∧ t.rxAddr ≠ s.frameAddress) ∧
    (i = 6 → DecodeRaises .unknownIdentifier u) ∧
    (i = 7 → DecodeRaises .badLength u) ∧
    (i = 8 →
      (u.frameLength < 3 ∨ 35 < u.frameLength → DecodeRaises .badLength u) ∧
      (3 ≤ u.frameLength → u.frameLength ≤ 35 → u.fill .rx < 9 + u.frameLength → DecodeRaises .truncated u) ∧
      (3 ≤ u.frameLength → u.frameLength ≤ 35 → 9 + u.frameLength ≤ u.fill .rx →
        (u.frameCalc ≠ u.frameRecv → DecodeRaises .checksumMismatch u) ∧
        (u.frameCalc = u.frameRecv → ∃ t, exec .decode u = .next t ∧ t.err = .ok)))

/-- R109 (d): one flipped bit of an accepted frame's instruction byte, data or checksum gives ChecksumMismatch. -/
def Obligations.FlippedPayloadOrChecksumBitIsReported : Prop :=
  ∀ (s u : State) (i : Nat) (k : Fin 8), FrameAccepted s → RxBitFlipped i k s u → 9 ≤ i →
    i < 9 + s.frameLength → DecodeRaises .checksumMismatch u

/-! ## Who writes what (spec/10_state.md) -/

/-- R20 to R33: each register and buffer is written by its own commands only; the host's registers by none. -/
def Obligations.EachRegisterHasItsWriters : Prop :=
  ∀ (i : Instr) (s t : State), exec i s = .next t →
    SameConfig s t ∧ SameOutside s t ∧
      (t.csumAcc ≠ s.csumAcc → i = .csumClear ∨ ∃ b, i = .csumFeed b) ∧
      (¬SameBuffer .pl s t → i = .plClear ∨ ∃ b, i = .plAppend b) ∧
      (¬SameBuffer .tx s t → i = .txClear ∨ ∃ id b, i = .encode id b) ∧
      (t.txCsum ≠ s.txCsum → ∃ id b, i = .encode id b) ∧
      (¬SameBuffer .rx s t → i = .rxClear ∨ ∃ b, i = .rxAppend b) ∧ (¬SameResults s t → i = .decode)

/-! ## The host bus (spec/20_memory.md) -/

/-- R19, R110: STATUS as it reads, field by field; reserved bits are 0 and codes 9 to 15 never appear. That a pending
command leaves CMD_OVR reading as it stands is the model's choice (log entry 19). -/
def Obligations.StatusReadsItsFields : Prop :=
  ∀ s : State, ReadsValue s 0x004 s.statusWord ∧ s.statusWord.getLsbD 0 = s.busy ∧ s.statusWord.getLsbD 1 = s.done ∧
    s.statusWord.extractLsb' 2 2 = 0#2 ∧ s.statusWord.extractLsb' 4 4 = s.err.number ∧ s.err.number.toNat ≤ 8 ∧
    s.statusWord.getLsbD 8 = s.plOvf ∧ s.statusWord.getLsbD 9 = s.rxOvf ∧ s.statusWord.getLsbD 10 = s.cmdOvr ∧
    s.statusWord.extractLsb' 11 21 = 0#21

/-- R43, R17, R18, R20 to R34: what an idle block's registers read as, offset by offset, with reserved bits 0. -/
def Obligations.IdleRegistersReadTheirValues : Prop :=
  ∀ s : State, s.busy = false →
    ReadsValue s 0x000 0#32 ∧ ReadsValue s 0x004 s.statusWord ∧
    ReadsValue s 0x008 (if s.addrCheckEn = true then 1#32 else 0#32) ∧ ReadsValue s 0x00C s.txAddr ∧
    ReadsValue s 0x010 s.expAddr ∧ ReadsValue s 0x014 (0#16 ++ s.csumAcc) ∧
    ReadsValue s 0x018 (BitVec.ofNat 32 (s.fill .pl)) ∧ ReadsValue s 0x01C (BitVec.ofNat 32 (s.fill .tx)) ∧
    ReadsValue s 0x020 (0#16 ++ s.txCsum) ∧ ReadsValue s 0x024 (BitVec.ofNat 32 (s.fill .rx)) ∧
    ReadsValue s 0x028 (0#22 ++ s.rxId) ∧ ReadsValue s 0x02C s.rxAddr ∧ ReadsValue s 0x030 (0#16 ++ s.rxFlen) ∧
    ReadsValue s 0x034 (0#24 ++ s.rxCode) ∧ ReadsValue s 0x038 (0#26 ++ s.rxDlen) ∧ ReadsValue s 0x03C s.rxCsum ∧
    ReadsValue s 0x040 0x01000020#32

/-- R43, R17: reserved offsets read 0, in every state. -/
def Obligations.ReservedOffsetsReadZero : Prop :=
  ∀ (s : State) (off : Nat), off % 4 = 0 → (0x044 ≤ off ∧ off ≤ 0x3FC) ∨ (0xC80 ≤ off ∧ off ≤ 0xFFC) →
    ReadsValue s off 0#32

/-- R45: in an idle block, a window read below the fill count gives the cell's byte, at or above it an 8-bit draw (that draws
are numbered is the model's choice, log entry 3). -/
def Obligations.IdleWindowsReadCellsOrDraws : Prop :=
  ∀ (s : State) (b : Buf) (i : Nat), s.busy = false → i < capacity b →
    (i < s.fill b → ReadsValue s (windowBase b + 4 * i) (0#24 ++ s.cell b i)) ∧
      (s.fill b ≤ i → ReadsDraw s (windowBase b + 4 * i) 8)

/-- R46: while BUSY = 1, reads of the words in the pending command's write set are draws of the register's width (that draws
are numbered is the model's choice, log entry 3). -/
def Obligations.BusyReadsOfTheWriteSetAreDraws : Prop :=
  ∀ (s : State) (w : Word) (i : Instr), s.busy = true → s.pending = some w → decode w = .ok i →
    (i = .csumClear ∨ (∃ b, i = .csumFeed b) → ReadsDraw s 0x014 16) ∧
    (i = .plClear ∨ (∃ b, i = .plAppend b) → ReadsDraw s 0x018 6 ∧ ∀ j, j < 32 → ReadsDraw s (0xC00 + 4 * j) 8) ∧
    ((∃ id b, i = .encode id b) → ReadsDraw s 0x01C 9 ∧ ReadsDraw s 0x020 16 ∧
      ∀ j, j < 256 → ReadsDraw s (0x400 + 4 * j) 8) ∧
    (i = .txClear → ReadsDraw s 0x01C 9 ∧ ∀ j, j < 256 → ReadsDraw s (0x400 + 4 * j) 8) ∧
    (i = .rxClear ∨ (∃ b, i = .rxAppend b) → ReadsDraw s 0x024 9 ∧ ∀ j, j < 256 → ReadsDraw s (0x800 + 4 * j) 8) ∧
    (i = .decode → ReadsDraw s 0x028 10 ∧ ReadsDraw s 0x02C 32 ∧ ReadsDraw s 0x030 16 ∧ ReadsDraw s 0x034 8 ∧
      ReadsDraw s 0x038 6 ∧ ReadsDraw s 0x03C 32)

/-- R43, R45, R46: reads of a word outside the pending command's write set are as in an idle block: STATUS, CTRL, TX_ADDR,
EXP_ADDR and CAPS always; everything while a NOP or an illegal word is pending; each register and window that R46's table
(written out here) does not list for the pending command. That STATUS reads the current CMD_OVR while a command is pending
is the model's choice (log entry 19), and so is the numbering of draws (log entry 3). -/
def Obligations.OtherBusyReadsAreCurrent : Prop :=
  ∀ s : State,
    (∀ r ∈ [Reg.status, Reg.ctrl, Reg.txAddr, Reg.expAddr, Reg.caps], ReadsValue s r.offset (s.regValue r)) ∧
    (∀ w, s.pending = some w → w = encode .nop ∨ legalWord w = false →
      (∀ r : Reg, ReadsValue s r.offset (s.regValue r)) ∧
        ∀ (b : Buf) (j : Nat), j < capacity b →
          (j < s.fill b → ReadsValue s (windowOffset b j) (0#24 ++ s.cell b j)) ∧
            (s.fill b ≤ j → ReadsDraw s (windowOffset b j) 8)) ∧
    ∀ (w : Word) (i : Instr), s.pending = some w → decode w = .ok i →
      let hidden : List Reg × List Buf :=
        match i with
        | .nop => ([], [])
        | .csumClear => ([.csumAcc], [])
        | .csumFeed _ => ([.csumAcc], [])
        | .plClear => ([.plLen], [.pl])
        | .plAppend _ => ([.plLen], [.pl])
        | .encode _ _ => ([.txLen, .txCsum], [.tx])
        | .rxClear => ([.rxLen], [.rx])
        | .rxAppend _ => ([.rxLen], [.rx])
        | .decode => ([.rxId, .rxAddr, .rxFlen, .rxCode, .rxDlen, .rxCsum], [])
        | .txClear => ([.txLen], [.tx])
      (∀ r, r ∉ hidden.1 → ReadsValue s r.offset (s.regValue r)) ∧
        ∀ (b : Buf) (j : Nat), b ∉ hidden.2 → j < capacity b →
          (j < s.fill b → ReadsValue s (windowOffset b j) (0#24 ++ s.cell b j)) ∧
            (s.fill b ≤ j → ReadsDraw s (windowOffset b j) 8)

/-- R51: a read changes nothing of the block; at most it uses one draw (the draw counter is the model's own, log entry 3). -/
def Obligations.ReadsHaveNoSideEffect : Prop :=
  ∀ (s t : State) (off n : Nat) (v : Word), s.memRead off n = .ok (v, t) →
    (∀ b, SameBuffer b s t) ∧ t.regValue = s.regValue ∧ t.pending = s.pending ∧ t.host = s.host ∧
      t.schedule = s.schedule ∧ t.resets = s.resets ∧ (t.draws = s.draws ∨ t.draws = s.draws + 1)

/-- R44, R19 to R22: what a host write does at each offset, busy or not; every offset not named ignores it. -/
def Obligations.HostWritesActAsTheMapSays : Prop :=
  ∀ (s : State) (v : Word),
    s.memWrite 0x000 4 v = .ok (s.issue v) ∧
    s.memWrite 0x004 4 v = .ok { s with
      done := if v.getLsbD 1 = true then false else s.done
      cmdOvr := if v.getLsbD 10 = true then false else s.cmdOvr } ∧
    s.memWrite 0x008 4 v = .ok { s with addrCheckEn := v.getLsbD 0 } ∧
    s.memWrite 0x00C 4 v = .ok { s with txAddr := v } ∧
    s.memWrite 0x010 4 v = .ok { s with expAddr := v } ∧
    ∀ off, off % 4 = 0 → 0x010 < off → off ≤ 0xFFC → s.memWrite off 4 v = .ok s

/-- R42, R115: an access of another width, unaligned or outside the window raises BusAccessFault, as a host's turn too (of an
aligned access outside the window this is deduced from R42, log entry 5). -/
def Obligations.UnadmittedAccessesFault : Prop :=
  ∀ (s : State) (off n : Nat) (v : Word), n ≠ 4 ∨ off % 4 ≠ 0 ∨ 0xFFC < off →
    s.memRead off n = .error (.busAccessFault off n) ∧ s.memWrite off n v = .error (.busAccessFault off n) ∧
      (∀ t, s.hostStmt (.memRead (.lit off) n t) = .fault (.busAccessFault off n)) ∧
      s.hostStmt (.memWrite (.lit off) n (.lit v.toNat)) = .fault (.busAccessFault off n)

/-- R47: a write to TX_ADDR before the engine's step is what a pending ENCODE sends; a write after it is not. -/
def Obligations.PendingEncodeSeesTheAddressWrittenBefore : Prop :=
  ∀ (id : Identifier) (instr : Byte) (a : Word) (s u : State), s.plOvf = false → s.memWrite 0x00C 4 a = .ok u →
    (∃ t, exec (.encode id instr) u = .next t ∧ ∀ k, k < 4 → some (t.cell .tx (2 + k)) = (be32 a)[k]?) ∧
      ∃ t t', exec (.encode id instr) s = .next t ∧ t.memWrite 0x00C 4 a = .ok t' ∧ t'.txAddr = a ∧
        ∀ k, k < 4 → some (t'.cell .tx (2 + k)) = (be32 s.txAddr)[k]?

/-- R53: once a command has completed, every register reads its value, no draw, and so does every cell below a fill count;
STATUS.ERR reads the command's code. -/
def Obligations.CompletedResultsAreVisible : Prop :=
  ∀ (i : Instr) (s t : State), exec i s = .next t →
    (∀ r : Reg, ReadsValue t r.offset (t.regValue r)) ∧ (t.regValue .status).getLsbD 0 = false ∧
      (t.regValue .status).extractLsb' 4 4 = t.err.number ∧
      ∀ (b : Buf) (j : Nat), j < capacity b → j < t.fill b → ReadsValue t (windowOffset b j) (0#24 ++ t.cell b j)

/-! ## The host agent (spec/30_encoding.md rule R61) -/

/-- R61: what the host's statements do at its turn: RD, WR, LET, a label's line, and the branches taken and not taken. The host
agent and its turn are the model's own state (log entries 1 and 2). That a branch goes to the first definition of a label,
onto the label's own line, that this line takes a turn, and that a branch taken to an undefined label faults are the
model's choices (log entry 12). -/
def Obligations.HostTurnExecutesItsStatement : Prop :=
  ∀ (s : State) (ts : List Turn) (st : HostStmt), s.schedule = .host :: ts → s.host.program[s.host.pc]? = some st →
    let s' := { s with schedule := ts }
    (∀ off v t, st = rd off v → s'.memRead (s'.eval off) 4 = .ok t →
      step s = .next (t.2.setHostVar v t.1.toNat).advance) ∧
    (∀ off e t, st = wr off e → s'.eval e < 2 ^ 32 →
      s'.memWrite (s'.eval off) 4 (BitVec.ofNat 32 (s'.eval e)) = .ok t → step s = .next t.advance) ∧
    (∀ v e, st = .set v e → step s = .next (s'.setHostVar v (s'.eval e)).advance) ∧
    (∀ l, st = .label l → step s = .next s'.advance) ∧
    ∀ a b l, st = .bnz a b l ∨ st = .blt a b l →
      if (st = .bnz a b l ∧ s'.eval a &&& s'.eval b ≠ 0) ∨ (st = .blt a b l ∧ s'.eval a < s'.eval b) then
        (∀ k, s.host.program.findIdx? (fun x => x == .label l) = some k →
          step s = .next { s' with host := { s'.host with pc := k } }) ∧
        (s.host.program.findIdx? (fun x => x == .label l) = none → step s = .fault (.hostLabelUndefined l))
      else step s = .next s'.advance

/-! ## Reset and invariants (spec/70_reset_and_hazards.md, spec/10_state.md rule R38) -/

/-- R128: the values the spec gives the registers after reset, as the host reads them; PENDING is empty. -/
def Obligations.ResetLeavesTheResetValues : Prop :=
  ReadsValue State.reset 0x004 0#32 ∧ ReadsValue State.reset 0x008 0#32 ∧
    ReadsValue State.reset 0x00C 0xFFFFFFFF#32 ∧ ReadsValue State.reset 0x010 0xFFFFFFFF#32 ∧
    (∀ off ∈ [0x014, 0x018, 0x01C, 0x020, 0x024, 0x028, 0x02C, 0x030, 0x034, 0x038, 0x03C],
      ReadsValue State.reset off 0#32) ∧
    ReadsValue State.reset 0x040 0x01000020#32 ∧ State.reset.pending = none ∧ ∀ b, State.reset.fill b = 0

/-- R127 to R129: the reset input, as a step of its own, leaves every register as in the reset state, whatever was pending,
and every cell with the draw of this reset. How a cell's draw is named, and that the host and the schedule stay, are the
model's choices (log entries 4 and 8). -/
def Obligations.ResetInputAbandonsEverything : Prop :=
  ∀ (s : State) (ts : List Turn), s.schedule = .reset :: ts →
    ∃ t, step s = .next t ∧ t.regValue = State.reset.regValue ∧ t.pending = none ∧ (∀ b, t.fill b = 0) ∧
      (∀ b i, t.cell b i = Config.resetCell (s.resets + 1) b i) ∧ t.host = s.host ∧ t.schedule = ts

/-- R38, and the ranges of R28, R30 and R32, hold of the reset state, whatever host program is loaded and whatever is scheduled;
so does the canonical form of the cell memories, which is the model's choice (log entry 4). -/
def Obligations.ResetMeetsTheInvariants : Prop :=
  ∀ (h : HostAgent) (ts : List Turn),
    ({ State.reset with host := h, schedule := ts } : State).Inv ∧
      ({ State.reset with host := h, schedule := ts } : State).CellsInv ∧
      ({ State.reset with host := h, schedule := ts } : State).ResultsLegal

/-- R38 (1) to (6): every step keeps them. -/
def Obligations.EveryStepKeepsTheInvariants : Prop := ∀ s t : State, s.Inv → step s = .next t → t.Inv

/-- Every step keeps the cell memories canonical, within their buffers, and written below the fill counts (R35, R78; the
canonical form is the model's choice, log entry 4). -/
def Obligations.EveryStepKeepsTheCellMemories : Prop := ∀ s t : State, s.CellsInv → step s = .next t → t.CellsInv

/-- R28, R30, R32: every step keeps the decoder's result registers within the values their rules allow. -/
def Obligations.EveryStepKeepsTheResultsLegal : Prop :=
  ∀ s t : State, s.ResultsLegal → step s = .next t → t.ResultsLegal

/-- R38: the invariants hold in every reachable state: after any number of steps from reset, with any host program and any
schedule. -/
def Obligations.EveryReachableStateMeetsTheInvariants : Prop :=
  ∀ (h : HostAgent) (ts : List Turn) (n : Nat) (t : State),
    core.run n ({ State.reset with host := h, schedule := ts } : State) = .next t → t.Inv
end

