-- ==== Sys2Proof/Laws/State.lean ====
section
/-! SUPPORT. One lemma per field per update of the state, true by rfl: no later proof unfolds a record update. -/

namespace Sys2Proof.Machine

variable (s : State)

/-! ## complete -/

@[simp] theorem State.complete_busy (c : ResultCode) : (s.complete c).busy = false := rfl
@[simp] theorem State.complete_done (c : ResultCode) : (s.complete c).done = true := rfl
@[simp] theorem State.complete_err (c : ResultCode) : (s.complete c).err = c := rfl
@[simp] theorem State.complete_plOvf (c : ResultCode) : (s.complete c).plOvf = s.plOvf := rfl
@[simp] theorem State.complete_rxOvf (c : ResultCode) : (s.complete c).rxOvf = s.rxOvf := rfl
@[simp] theorem State.complete_cmdOvr (c : ResultCode) : (s.complete c).cmdOvr = s.cmdOvr := rfl
@[simp] theorem State.complete_addrCheckEn (c : ResultCode) : (s.complete c).addrCheckEn = s.addrCheckEn := rfl
@[simp] theorem State.complete_txAddr (c : ResultCode) : (s.complete c).txAddr = s.txAddr := rfl
@[simp] theorem State.complete_expAddr (c : ResultCode) : (s.complete c).expAddr = s.expAddr := rfl
@[simp] theorem State.complete_csumAcc (c : ResultCode) : (s.complete c).csumAcc = s.csumAcc := rfl
@[simp] theorem State.complete_pl (c : ResultCode) : (s.complete c).pl = s.pl := rfl
@[simp] theorem State.complete_tx (c : ResultCode) : (s.complete c).tx = s.tx := rfl
@[simp] theorem State.complete_txCsum (c : ResultCode) : (s.complete c).txCsum = s.txCsum := rfl
@[simp] theorem State.complete_rx (c : ResultCode) : (s.complete c).rx = s.rx := rfl
@[simp] theorem State.complete_rxId (c : ResultCode) : (s.complete c).rxId = s.rxId := rfl
@[simp] theorem State.complete_rxAddr (c : ResultCode) : (s.complete c).rxAddr = s.rxAddr := rfl
@[simp] theorem State.complete_rxFlen (c : ResultCode) : (s.complete c).rxFlen = s.rxFlen := rfl
@[simp] theorem State.complete_rxCode (c : ResultCode) : (s.complete c).rxCode = s.rxCode := rfl
@[simp] theorem State.complete_rxDlen (c : ResultCode) : (s.complete c).rxDlen = s.rxDlen := rfl
@[simp] theorem State.complete_rxCsum (c : ResultCode) : (s.complete c).rxCsum = s.rxCsum := rfl
@[simp] theorem State.complete_pending (c : ResultCode) : (s.complete c).pending = none := rfl
@[simp] theorem State.complete_host (c : ResultCode) : (s.complete c).host = s.host := rfl
@[simp] theorem State.complete_schedule (c : ResultCode) : (s.complete c).schedule = s.schedule := rfl
@[simp] theorem State.complete_draws (c : ResultCode) : (s.complete c).draws = s.draws := rfl
@[simp] theorem State.complete_resets (c : ResultCode) : (s.complete c).resets = s.resets := rfl

/-! ## raise -/

@[simp] theorem State.raise_busy (c : ResultCode) : (s.raise c).busy = false := rfl
@[simp] theorem State.raise_done (c : ResultCode) : (s.raise c).done = true := rfl
@[simp] theorem State.raise_err (c : ResultCode) : (s.raise c).err = c := rfl
@[simp] theorem State.raise_plOvf (c : ResultCode) : (s.raise c).plOvf = s.plOvf := rfl
@[simp] theorem State.raise_rxOvf (c : ResultCode) : (s.raise c).rxOvf = s.rxOvf := rfl
@[simp] theorem State.raise_cmdOvr (c : ResultCode) : (s.raise c).cmdOvr = s.cmdOvr := rfl
@[simp] theorem State.raise_addrCheckEn (c : ResultCode) : (s.raise c).addrCheckEn = s.addrCheckEn := rfl
@[simp] theorem State.raise_txAddr (c : ResultCode) : (s.raise c).txAddr = s.txAddr := rfl
@[simp] theorem State.raise_expAddr (c : ResultCode) : (s.raise c).expAddr = s.expAddr := rfl
@[simp] theorem State.raise_csumAcc (c : ResultCode) : (s.raise c).csumAcc = s.csumAcc := rfl
@[simp] theorem State.raise_pl (c : ResultCode) : (s.raise c).pl = s.pl := rfl
@[simp] theorem State.raise_tx (c : ResultCode) : (s.raise c).tx = s.tx := rfl
@[simp] theorem State.raise_txCsum (c : ResultCode) : (s.raise c).txCsum = s.txCsum := rfl
@[simp] theorem State.raise_rx (c : ResultCode) : (s.raise c).rx = s.rx := rfl
@[simp] theorem State.raise_rxId (c : ResultCode) : (s.raise c).rxId = s.rxId := rfl
@[simp] theorem State.raise_rxAddr (c : ResultCode) : (s.raise c).rxAddr = s.rxAddr := rfl
@[simp] theorem State.raise_rxFlen (c : ResultCode) : (s.raise c).rxFlen = s.rxFlen := rfl
@[simp] theorem State.raise_rxCode (c : ResultCode) : (s.raise c).rxCode = s.rxCode := rfl
@[simp] theorem State.raise_rxDlen (c : ResultCode) : (s.raise c).rxDlen = s.rxDlen := rfl
@[simp] theorem State.raise_rxCsum (c : ResultCode) : (s.raise c).rxCsum = s.rxCsum := rfl
@[simp] theorem State.raise_pending (c : ResultCode) : (s.raise c).pending = none := rfl
@[simp] theorem State.raise_host (c : ResultCode) : (s.raise c).host = s.host := rfl
@[simp] theorem State.raise_schedule (c : ResultCode) : (s.raise c).schedule = s.schedule := rfl
@[simp] theorem State.raise_draws (c : ResultCode) : (s.raise c).draws = s.draws := rfl
@[simp] theorem State.raise_resets (c : ResultCode) : (s.raise c).resets = s.resets := rfl

/-! ## commitFrame -/

@[simp] theorem State.commitFrame_busy (f : List Byte) (n : Nat) (c : Half) : (s.commitFrame f n c).busy = s.busy := rfl
@[simp] theorem State.commitFrame_done (f : List Byte) (n : Nat) (c : Half) : (s.commitFrame f n c).done = s.done := rfl
@[simp] theorem State.commitFrame_err (f : List Byte) (n : Nat) (c : Half) : (s.commitFrame f n c).err = s.err := rfl
@[simp] theorem State.commitFrame_plOvf (f : List Byte) (n : Nat) (c : Half) : (s.commitFrame f n c).plOvf = s.plOvf := rfl
@[simp] theorem State.commitFrame_rxOvf (f : List Byte) (n : Nat) (c : Half) : (s.commitFrame f n c).rxOvf = s.rxOvf := rfl
@[simp] theorem State.commitFrame_cmdOvr (f : List Byte) (n : Nat) (c : Half) : (s.commitFrame f n c).cmdOvr = s.cmdOvr := rfl
@[simp] theorem State.commitFrame_addrCheckEn (f : List Byte) (n : Nat) (c : Half) : (s.commitFrame f n c).addrCheckEn = s.addrCheckEn := rfl
@[simp] theorem State.commitFrame_txAddr (f : List Byte) (n : Nat) (c : Half) : (s.commitFrame f n c).txAddr = s.txAddr := rfl
@[simp] theorem State.commitFrame_expAddr (f : List Byte) (n : Nat) (c : Half) : (s.commitFrame f n c).expAddr = s.expAddr := rfl
@[simp] theorem State.commitFrame_csumAcc (f : List Byte) (n : Nat) (c : Half) : (s.commitFrame f n c).csumAcc = s.csumAcc := rfl
@[simp] theorem State.commitFrame_pl (f : List Byte) (n : Nat) (c : Half) : (s.commitFrame f n c).pl = s.pl := rfl
@[simp] theorem State.commitFrame_tx (f : List Byte) (n : Nat) (c : Half) : (s.commitFrame f n c).tx = { cells := Memory.writeAll s.tx.cells 0 f, len := BitVec.ofNat 9 n } := rfl
@[simp] theorem State.commitFrame_txCsum (f : List Byte) (n : Nat) (c : Half) : (s.commitFrame f n c).txCsum = c := rfl
@[simp] theorem State.commitFrame_rx (f : List Byte) (n : Nat) (c : Half) : (s.commitFrame f n c).rx = s.rx := rfl
@[simp] theorem State.commitFrame_rxId (f : List Byte) (n : Nat) (c : Half) : (s.commitFrame f n c).rxId = s.rxId := rfl
@[simp] theorem State.commitFrame_rxAddr (f : List Byte) (n : Nat) (c : Half) : (s.commitFrame f n c).rxAddr = s.rxAddr := rfl
@[simp] theorem State.commitFrame_rxFlen (f : List Byte) (n : Nat) (c : Half) : (s.commitFrame f n c).rxFlen = s.rxFlen := rfl
@[simp] theorem State.commitFrame_rxCode (f : List Byte) (n : Nat) (c : Half) : (s.commitFrame f n c).rxCode = s.rxCode := rfl
@[simp] theorem State.commitFrame_rxDlen (f : List Byte) (n : Nat) (c : Half) : (s.commitFrame f n c).rxDlen = s.rxDlen := rfl
@[simp] theorem State.commitFrame_rxCsum (f : List Byte) (n : Nat) (c : Half) : (s.commitFrame f n c).rxCsum = s.rxCsum := rfl
@[simp] theorem State.commitFrame_pending (f : List Byte) (n : Nat) (c : Half) : (s.commitFrame f n c).pending = s.pending := rfl
@[simp] theorem State.commitFrame_host (f : List Byte) (n : Nat) (c : Half) : (s.commitFrame f n c).host = s.host := rfl
@[simp] theorem State.commitFrame_schedule (f : List Byte) (n : Nat) (c : Half) : (s.commitFrame f n c).schedule = s.schedule := rfl
@[simp] theorem State.commitFrame_draws (f : List Byte) (n : Nat) (c : Half) : (s.commitFrame f n c).draws = s.draws := rfl
@[simp] theorem State.commitFrame_resets (f : List Byte) (n : Nat) (c : Half) : (s.commitFrame f n c).resets = s.resets := rfl

/-! ## recordFrame -/

@[simp] theorem State.recordFrame_busy (r : List Byte) : (s.recordFrame r).busy = s.busy := rfl
@[simp] theorem State.recordFrame_done (r : List Byte) : (s.recordFrame r).done = s.done := rfl
@[simp] theorem State.recordFrame_err (r : List Byte) : (s.recordFrame r).err = s.err := rfl
@[simp] theorem State.recordFrame_plOvf (r : List Byte) : (s.recordFrame r).plOvf = s.plOvf := rfl
@[simp] theorem State.recordFrame_rxOvf (r : List Byte) : (s.recordFrame r).rxOvf = s.rxOvf := rfl
@[simp] theorem State.recordFrame_cmdOvr (r : List Byte) : (s.recordFrame r).cmdOvr = s.cmdOvr := rfl
@[simp] theorem State.recordFrame_addrCheckEn (r : List Byte) : (s.recordFrame r).addrCheckEn = s.addrCheckEn := rfl
@[simp] theorem State.recordFrame_txAddr (r : List Byte) : (s.recordFrame r).txAddr = s.txAddr := rfl
@[simp] theorem State.recordFrame_expAddr (r : List Byte) : (s.recordFrame r).expAddr = s.expAddr := rfl
@[simp] theorem State.recordFrame_csumAcc (r : List Byte) : (s.recordFrame r).csumAcc = s.csumAcc := rfl
@[simp] theorem State.recordFrame_pl (r : List Byte) : (s.recordFrame r).pl = s.pl := rfl
@[simp] theorem State.recordFrame_tx (r : List Byte) : (s.recordFrame r).tx = s.tx := rfl
@[simp] theorem State.recordFrame_txCsum (r : List Byte) : (s.recordFrame r).txCsum = s.txCsum := rfl
@[simp] theorem State.recordFrame_rx (r : List Byte) : (s.recordFrame r).rx = s.rx := rfl
@[simp] theorem State.recordFrame_rxId (r : List Byte) : (s.recordFrame r).rxId = rxIdValue (byteAt r 6) := rfl
@[simp] theorem State.recordFrame_rxAddr (r : List Byte) : (s.recordFrame r).rxAddr = rxAddress r := rfl
@[simp] theorem State.recordFrame_rxFlen (r : List Byte) : (s.recordFrame r).rxFlen = rxLength r := rfl
@[simp] theorem State.recordFrame_rxCode (r : List Byte) : (s.recordFrame r).rxCode = byteAt r 9 := rfl
@[simp] theorem State.recordFrame_rxDlen (r : List Byte) : (s.recordFrame r).rxDlen = BitVec.ofNat 6 ((rxLength r).toNat - 3) := rfl
@[simp] theorem State.recordFrame_rxCsum (r : List Byte) : (s.recordFrame r).rxCsum = rxCalc r ++ rxRecv r := rfl
@[simp] theorem State.recordFrame_pending (r : List Byte) : (s.recordFrame r).pending = s.pending := rfl
@[simp] theorem State.recordFrame_host (r : List Byte) : (s.recordFrame r).host = s.host := rfl
@[simp] theorem State.recordFrame_schedule (r : List Byte) : (s.recordFrame r).schedule = s.schedule := rfl
@[simp] theorem State.recordFrame_draws (r : List Byte) : (s.recordFrame r).draws = s.draws := rfl
@[simp] theorem State.recordFrame_resets (r : List Byte) : (s.recordFrame r).resets = s.resets := rfl

/-! ## writeStatus -/

@[simp] theorem State.writeStatus_busy (v : Word) : (s.writeStatus v).busy = s.busy := rfl
@[simp] theorem State.writeStatus_done (v : Word) : (s.writeStatus v).done = (s.done && !v.getLsbD 1) := rfl
@[simp] theorem State.writeStatus_err (v : Word) : (s.writeStatus v).err = s.err := rfl
@[simp] theorem State.writeStatus_plOvf (v : Word) : (s.writeStatus v).plOvf = s.plOvf := rfl
@[simp] theorem State.writeStatus_rxOvf (v : Word) : (s.writeStatus v).rxOvf = s.rxOvf := rfl
@[simp] theorem State.writeStatus_cmdOvr (v : Word) : (s.writeStatus v).cmdOvr = (s.cmdOvr && !v.getLsbD 10) := rfl
@[simp] theorem State.writeStatus_addrCheckEn (v : Word) : (s.writeStatus v).addrCheckEn = s.addrCheckEn := rfl
@[simp] theorem State.writeStatus_txAddr (v : Word) : (s.writeStatus v).txAddr = s.txAddr := rfl
@[simp] theorem State.writeStatus_expAddr (v : Word) : (s.writeStatus v).expAddr = s.expAddr := rfl
@[simp] theorem State.writeStatus_csumAcc (v : Word) : (s.writeStatus v).csumAcc = s.csumAcc := rfl
@[simp] theorem State.writeStatus_pl (v : Word) : (s.writeStatus v).pl = s.pl := rfl
@[simp] theorem State.writeStatus_tx (v : Word) : (s.writeStatus v).tx = s.tx := rfl
@[simp] theorem State.writeStatus_txCsum (v : Word) : (s.writeStatus v).txCsum = s.txCsum := rfl
@[simp] theorem State.writeStatus_rx (v : Word) : (s.writeStatus v).rx = s.rx := rfl
@[simp] theorem State.writeStatus_rxId (v : Word) : (s.writeStatus v).rxId = s.rxId := rfl
@[simp] theorem State.writeStatus_rxAddr (v : Word) : (s.writeStatus v).rxAddr = s.rxAddr := rfl
@[simp] theorem State.writeStatus_rxFlen (v : Word) : (s.writeStatus v).rxFlen = s.rxFlen := rfl
@[simp] theorem State.writeStatus_rxCode (v : Word) : (s.writeStatus v).rxCode = s.rxCode := rfl
@[simp] theorem State.writeStatus_rxDlen (v : Word) : (s.writeStatus v).rxDlen = s.rxDlen := rfl
@[simp] theorem State.writeStatus_rxCsum (v : Word) : (s.writeStatus v).rxCsum = s.rxCsum := rfl
@[simp] theorem State.writeStatus_pending (v : Word) : (s.writeStatus v).pending = s.pending := rfl
@[simp] theorem State.writeStatus_host (v : Word) : (s.writeStatus v).host = s.host := rfl
@[simp] theorem State.writeStatus_schedule (v : Word) : (s.writeStatus v).schedule = s.schedule := rfl
@[simp] theorem State.writeStatus_draws (v : Word) : (s.writeStatus v).draws = s.draws := rfl
@[simp] theorem State.writeStatus_resets (v : Word) : (s.writeStatus v).resets = s.resets := rfl

/-! ## advance -/

@[simp] theorem State.advance_busy : (s.advance).busy = s.busy := rfl
@[simp] theorem State.advance_done : (s.advance).done = s.done := rfl
@[simp] theorem State.advance_err : (s.advance).err = s.err := rfl
@[simp] theorem State.advance_plOvf : (s.advance).plOvf = s.plOvf := rfl
@[simp] theorem State.advance_rxOvf : (s.advance).rxOvf = s.rxOvf := rfl
@[simp] theorem State.advance_cmdOvr : (s.advance).cmdOvr = s.cmdOvr := rfl
@[simp] theorem State.advance_addrCheckEn : (s.advance).addrCheckEn = s.addrCheckEn := rfl
@[simp] theorem State.advance_txAddr : (s.advance).txAddr = s.txAddr := rfl
@[simp] theorem State.advance_expAddr : (s.advance).expAddr = s.expAddr := rfl
@[simp] theorem State.advance_csumAcc : (s.advance).csumAcc = s.csumAcc := rfl
@[simp] theorem State.advance_pl : (s.advance).pl = s.pl := rfl
@[simp] theorem State.advance_tx : (s.advance).tx = s.tx := rfl
@[simp] theorem State.advance_txCsum : (s.advance).txCsum = s.txCsum := rfl
@[simp] theorem State.advance_rx : (s.advance).rx = s.rx := rfl
@[simp] theorem State.advance_rxId : (s.advance).rxId = s.rxId := rfl
@[simp] theorem State.advance_rxAddr : (s.advance).rxAddr = s.rxAddr := rfl
@[simp] theorem State.advance_rxFlen : (s.advance).rxFlen = s.rxFlen := rfl
@[simp] theorem State.advance_rxCode : (s.advance).rxCode = s.rxCode := rfl
@[simp] theorem State.advance_rxDlen : (s.advance).rxDlen = s.rxDlen := rfl
@[simp] theorem State.advance_rxCsum : (s.advance).rxCsum = s.rxCsum := rfl
@[simp] theorem State.advance_pending : (s.advance).pending = s.pending := rfl
@[simp] theorem State.advance_host : (s.advance).host = { s.host with pc := s.host.pc + 1 } := rfl
@[simp] theorem State.advance_schedule : (s.advance).schedule = s.schedule := rfl
@[simp] theorem State.advance_draws : (s.advance).draws = s.draws := rfl
@[simp] theorem State.advance_resets : (s.advance).resets = s.resets := rfl

/-! ## setHostVar -/

@[simp] theorem State.setHostVar_busy (v : HostVar) (x : Nat) : (s.setHostVar v x).busy = s.busy := rfl
@[simp] theorem State.setHostVar_done (v : HostVar) (x : Nat) : (s.setHostVar v x).done = s.done := rfl
@[simp] theorem State.setHostVar_err (v : HostVar) (x : Nat) : (s.setHostVar v x).err = s.err := rfl
@[simp] theorem State.setHostVar_plOvf (v : HostVar) (x : Nat) : (s.setHostVar v x).plOvf = s.plOvf := rfl
@[simp] theorem State.setHostVar_rxOvf (v : HostVar) (x : Nat) : (s.setHostVar v x).rxOvf = s.rxOvf := rfl
@[simp] theorem State.setHostVar_cmdOvr (v : HostVar) (x : Nat) : (s.setHostVar v x).cmdOvr = s.cmdOvr := rfl
@[simp] theorem State.setHostVar_addrCheckEn (v : HostVar) (x : Nat) : (s.setHostVar v x).addrCheckEn = s.addrCheckEn := rfl
@[simp] theorem State.setHostVar_txAddr (v : HostVar) (x : Nat) : (s.setHostVar v x).txAddr = s.txAddr := rfl
@[simp] theorem State.setHostVar_expAddr (v : HostVar) (x : Nat) : (s.setHostVar v x).expAddr = s.expAddr := rfl
@[simp] theorem State.setHostVar_csumAcc (v : HostVar) (x : Nat) : (s.setHostVar v x).csumAcc = s.csumAcc := rfl
@[simp] theorem State.setHostVar_pl (v : HostVar) (x : Nat) : (s.setHostVar v x).pl = s.pl := rfl
@[simp] theorem State.setHostVar_tx (v : HostVar) (x : Nat) : (s.setHostVar v x).tx = s.tx := rfl
@[simp] theorem State.setHostVar_txCsum (v : HostVar) (x : Nat) : (s.setHostVar v x).txCsum = s.txCsum := rfl
@[simp] theorem State.setHostVar_rx (v : HostVar) (x : Nat) : (s.setHostVar v x).rx = s.rx := rfl
@[simp] theorem State.setHostVar_rxId (v : HostVar) (x : Nat) : (s.setHostVar v x).rxId = s.rxId := rfl
@[simp] theorem State.setHostVar_rxAddr (v : HostVar) (x : Nat) : (s.setHostVar v x).rxAddr = s.rxAddr := rfl
@[simp] theorem State.setHostVar_rxFlen (v : HostVar) (x : Nat) : (s.setHostVar v x).rxFlen = s.rxFlen := rfl
@[simp] theorem State.setHostVar_rxCode (v : HostVar) (x : Nat) : (s.setHostVar v x).rxCode = s.rxCode := rfl
@[simp] theorem State.setHostVar_rxDlen (v : HostVar) (x : Nat) : (s.setHostVar v x).rxDlen = s.rxDlen := rfl
@[simp] theorem State.setHostVar_rxCsum (v : HostVar) (x : Nat) : (s.setHostVar v x).rxCsum = s.rxCsum := rfl
@[simp] theorem State.setHostVar_pending (v : HostVar) (x : Nat) : (s.setHostVar v x).pending = s.pending := rfl
@[simp] theorem State.setHostVar_host (v : HostVar) (x : Nat) : (s.setHostVar v x).host = { s.host with vars := setVar s.host.vars v x } := rfl
@[simp] theorem State.setHostVar_schedule (v : HostVar) (x : Nat) : (s.setHostVar v x).schedule = s.schedule := rfl
@[simp] theorem State.setHostVar_draws (v : HostVar) (x : Nat) : (s.setHostVar v x).draws = s.draws := rfl
@[simp] theorem State.setHostVar_resets (v : HostVar) (x : Nat) : (s.setHostVar v x).resets = s.resets := rfl

/-! ## assertReset -/

@[simp] theorem State.assertReset_busy : s.assertReset.busy = State.reset.busy := rfl
@[simp] theorem State.assertReset_done : s.assertReset.done = State.reset.done := rfl
@[simp] theorem State.assertReset_err : s.assertReset.err = State.reset.err := rfl
@[simp] theorem State.assertReset_plOvf : s.assertReset.plOvf = State.reset.plOvf := rfl
@[simp] theorem State.assertReset_rxOvf : s.assertReset.rxOvf = State.reset.rxOvf := rfl
@[simp] theorem State.assertReset_cmdOvr : s.assertReset.cmdOvr = State.reset.cmdOvr := rfl
@[simp] theorem State.assertReset_addrCheckEn : s.assertReset.addrCheckEn = State.reset.addrCheckEn := rfl
@[simp] theorem State.assertReset_txAddr : s.assertReset.txAddr = State.reset.txAddr := rfl
@[simp] theorem State.assertReset_expAddr : s.assertReset.expAddr = State.reset.expAddr := rfl
@[simp] theorem State.assertReset_csumAcc : s.assertReset.csumAcc = State.reset.csumAcc := rfl
@[simp] theorem State.assertReset_pl : s.assertReset.pl = State.reset.pl := rfl
@[simp] theorem State.assertReset_tx : s.assertReset.tx = State.reset.tx := rfl
@[simp] theorem State.assertReset_txCsum : s.assertReset.txCsum = State.reset.txCsum := rfl
@[simp] theorem State.assertReset_rx : s.assertReset.rx = State.reset.rx := rfl
@[simp] theorem State.assertReset_rxId : s.assertReset.rxId = State.reset.rxId := rfl
@[simp] theorem State.assertReset_rxAddr : s.assertReset.rxAddr = State.reset.rxAddr := rfl
@[simp] theorem State.assertReset_rxFlen : s.assertReset.rxFlen = State.reset.rxFlen := rfl
@[simp] theorem State.assertReset_rxCode : s.assertReset.rxCode = State.reset.rxCode := rfl
@[simp] theorem State.assertReset_rxDlen : s.assertReset.rxDlen = State.reset.rxDlen := rfl
@[simp] theorem State.assertReset_rxCsum : s.assertReset.rxCsum = State.reset.rxCsum := rfl
@[simp] theorem State.assertReset_pending : s.assertReset.pending = State.reset.pending := rfl
@[simp] theorem State.assertReset_host : s.assertReset.host = s.host := rfl
@[simp] theorem State.assertReset_schedule : s.assertReset.schedule = s.schedule := rfl
@[simp] theorem State.assertReset_draws : s.assertReset.draws = s.draws := rfl
@[simp] theorem State.assertReset_resets : s.assertReset.resets = s.resets + 1 := rfl

/-! ## Reading one byte through an update -/

theorem State.cells_of_buffers {s t : State} (h1 : t.pl = s.pl) (h2 : t.tx = s.tx) (h3 : t.rx = s.rx) (b : Buf) :
    t.cells b = s.cells b := by cases b <;> simp [State.cells, h1, h2, h3]

theorem State.fill_of_buffers {s t : State} (h1 : t.pl = s.pl) (h2 : t.tx = s.tx) (h3 : t.rx = s.rx) (b : Buf) :
    t.fill b = s.fill b := by cases b <;> simp [State.fill, h1, h2, h3]

/-- A cell's byte depends on the buffer's cell memory and the reset that gave the unwritten cells their draws. -/
theorem State.cell_congr {s t : State} {b : Buf} (hc : t.cells b = s.cells b) (hr : t.resets = s.resets) (i : Nat) :
    t.cell b i = s.cell b i := by simp [State.cell, hc, hr]

@[simp] theorem State.complete_cells (c : ResultCode) (b : Buf) : (s.complete c).cells b = s.cells b := by cases b <;> rfl
@[simp] theorem State.complete_fill (c : ResultCode) (b : Buf) : (s.complete c).fill b = s.fill b := by cases b <;> rfl
@[simp] theorem State.complete_cell (c : ResultCode) (b : Buf) (i : Nat) : (s.complete c).cell b i = s.cell b i := by
  cases b <;> rfl
@[simp] theorem State.raise_cells (c : ResultCode) (b : Buf) : (s.raise c).cells b = s.cells b := by cases b <;> rfl
@[simp] theorem State.raise_fill (c : ResultCode) (b : Buf) : (s.raise c).fill b = s.fill b := by cases b <;> rfl
@[simp] theorem State.raise_cell (c : ResultCode) (b : Buf) (i : Nat) : (s.raise c).cell b i = s.cell b i := by
  cases b <;> rfl
@[simp] theorem State.recordFrame_cells (r : List Byte) (b : Buf) : (s.recordFrame r).cells b = s.cells b := by
  cases b <;> rfl
@[simp] theorem State.recordFrame_fill (r : List Byte) (b : Buf) : (s.recordFrame r).fill b = s.fill b := by
  cases b <;> rfl
@[simp] theorem State.recordFrame_cell (r : List Byte) (b : Buf) (i : Nat) :
    (s.recordFrame r).cell b i = s.cell b i := by cases b <;> rfl

/-- What completing leaves: exactly the fields `complete` writes have changed. -/
theorem State.complete_completed (c : ResultCode) : (s.complete c).Completed c := ⟨rfl, rfl, rfl, rfl⟩

theorem State.complete_only (c : ResultCode) : OnlyCompletionChanged s (s.complete c) :=
  ⟨fun b => ⟨by simp, fun i => by simp⟩, ⟨rfl, rfl, rfl⟩, ⟨rfl, rfl, rfl⟩, rfl, rfl, ⟨rfl, rfl, rfl, rfl, rfl, rfl⟩,
    ⟨rfl, rfl, rfl, rfl⟩⟩

end Sys2Proof.Machine
end

