-- ==== Sys2Proof/Laws/Bus.lean ====
section
/-! SUPPORT. What a bus access can do: the register map, reads that answer a value or a draw, and writes. -/

namespace Sys2Proof.Machine

/-! ## The map -/

theorem regAt_offset (r : Reg) : regAt r.offset = some r := by cases r <;> rfl

theorem admitted_offset (r : Reg) : admitted r.offset 4 = true := by cases r <;> rfl

theorem regAt_cases (off : Nat) :
    (∃ r, regAt off = some r ∧ off = r.offset) ∨ (regAt off = none ∧ ∀ r : Reg, off ≠ r.offset) := by
  cases h : regAt off with
  | some r =>
    have := List.find?_some h
    exact .inl ⟨r, rfl, (beq_iff_eq.1 this).symm⟩
  | none =>
    refine .inr ⟨rfl, fun r hr => ?_⟩
    have := List.find?_eq_none.1 h r (by cases r <;> simp [allRegs])
    subst hr
    simp at this

theorem regAt_beyond {off : Nat} (h : 0x40 < off) : regAt off = none := by
  rcases regAt_cases off with ⟨r, _, ho⟩ | ⟨h, _⟩
  · exfalso
    cases r <;> simp [Reg.offset] at ho <;> omega
  · exact h

theorem windowOffset_gt (b : Buf) (i : Nat) : 0x40 < windowOffset b i := by
  cases b <;> simp [windowOffset, windowBase] <;> omega

theorem windowAt_windowOffset {b : Buf} {i : Nat} (h : i < capacity b) : windowAt (windowOffset b i) = some (b, i) := by
  have hw : ∀ off, off = windowOffset b i → windowAt off = some (b, i) := by
    intro off ho
    cases b <;> simp only [capacity] at h <;> simp only [windowOffset, windowBase] at ho <;> unfold windowAt
    · rw [if_neg (by omega), if_neg (by omega), if_pos (by omega)]; congr 2; omega
    · rw [if_pos (by omega)]; congr 2; omega
    · rw [if_neg (by omega), if_pos (by omega)]; congr 2; omega
  exact hw _ rfl

theorem admitted_windowOffset {b : Buf} {i : Nat} (h : i < capacity b) : admitted (windowOffset b i) 4 = true := by
  have hw : ∀ off, off = windowOffset b i → admitted off 4 = true := by
    intro off ho
    cases b <;> simp only [capacity] at h <;> simp only [windowOffset, windowBase] at ho <;>
      exact decide_eq_true (by omega)
  exact hw _ rfl

/-! ## Reads (R43, R45, R46, R51) -/

theorem readsValue_reg {s : State} {r : Reg} (h : s.regHidden r = false) : ReadsValue s r.offset (s.regValue r) := by
  simp [ReadsValue, State.memRead, admitted_offset, State.readWord, regAt_offset, h, State.resolve]

theorem readsDraw_reg {s : State} {r : Reg} (h : s.regHidden r = true) : ReadsDraw s r.offset r.width := by
  simp [ReadsDraw, State.memRead, admitted_offset, State.readWord, regAt_offset, h, State.resolve, State.takeDraw]

theorem readsValue_window {s : State} {b : Buf} {i : Nat} (hb : i < capacity b) (h : s.windowHidden b = false)
    (hi : i < s.fill b) : ReadsValue s (windowOffset b i) ((s.cell b i).setWidth 32) := by
  simp [ReadsValue, State.memRead, admitted_windowOffset hb, State.readWord, regAt_beyond (windowOffset_gt b i),
    windowAt_windowOffset hb, State.windowRead, h, hi, State.resolve]

theorem readsDraw_window {s : State} {b : Buf} {i : Nat} (hb : i < capacity b)
    (h : s.windowHidden b = true ∨ s.fill b ≤ i) : ReadsDraw s (windowOffset b i) 8 := by
  have : s.windowRead b i = .draw 8 := by
    unfold State.windowRead
    rcases h with h | h
    · simp [h]
    · split <;> [rfl; (rw [if_neg (by omega)])]
  simp [ReadsDraw, State.memRead, admitted_windowOffset hb, State.readWord, regAt_beyond (windowOffset_gt b i),
    windowAt_windowOffset hb, this, State.resolve, State.takeDraw]

theorem busyCommand_idle {s : State} (h : s.busy = false) : s.busyCommand = none := by simp [State.busyCommand, h]

theorem regHidden_of_none {s : State} (h : s.busyCommand = none) (r : Reg) : s.regHidden r = false := by
  simp [State.regHidden, h]

theorem windowHidden_of_none {s : State} (h : s.busyCommand = none) (b : Buf) : s.windowHidden b = false := by
  simp [State.windowHidden, h]

/-- All a read can do to the state: nothing, or use one draw. -/
theorem memRead_state {s t : State} {off n : Nat} {v : Word} (h : s.memRead off n = .ok (v, t)) :
    t = s ∨ t = { s with draws := s.draws + 1 } := by
  unfold State.memRead at h
  split at h
  · cases hr : s.readWord off with
    | word x =>
      rw [hr] at h
      simp [State.resolve] at h
      exact .inl h.2.symm
    | draw w =>
      rw [hr] at h
      simp [State.resolve, State.takeDraw] at h
      exact .inr h.2.symm
  · cases h

/-! ## Writes (R44, R64) -/

/-- All a host write can do to the block. -/
inductive HostWrite : State → State → Prop where
  | ignored (s : State) : HostWrite s s
  | accepted (s : State) (v : Word) (h : s.pending = none) :
      HostWrite s { s with pending := some v, busy := true, done := false }
  | discarded (s : State) (h : s.pending ≠ none) : HostWrite s { s with cmdOvr := true }
  | status (s : State) (v : Word) : HostWrite s (s.writeStatus v)
  | ctrl (s : State) (b : Bool) : HostWrite s { s with addrCheckEn := b }
  | txAddr (s : State) (v : Word) : HostWrite s { s with txAddr := v }
  | expAddr (s : State) (v : Word) : HostWrite s { s with expAddr := v }

theorem issue_hostWrite (s : State) (v : Word) : HostWrite s (s.issue v) := by
  unfold State.issue
  split
  · exact .accepted _ _ ‹_›
  · exact .discarded _ (by simp [*])

theorem writeWord_hostWrite (s : State) (off : Nat) (v : Word) : HostWrite s (s.writeWord off v) := by
  unfold State.writeWord
  split
  exacts [issue_hostWrite s v, .status s v, .ctrl s _, .txAddr s _, .expAddr s _, .ignored s]

/-- Which offset a write that was performed had, and what it did. -/
theorem memWrite_cases {off n : Nat} {v : Word} {s t : State} (h : State.memWrite off n v s = .ok t) :
    (t = s.issue v ∧ off = 0) ∨ (t = s.writeStatus v ∧ off = 4) ∨
      (t = { s with addrCheckEn := v.getLsbD 0 } ∧ off = 8) ∨ (t = { s with txAddr := v } ∧ off = 12) ∨
      (t = { s with expAddr := v } ∧ off = 16) ∨ (t = s ∧ off ≠ 0 ∧ off ≠ 4) := by
  unfold State.memWrite at h
  split at h
  · cases h
    unfold State.writeWord
    rcases regAt_cases off with ⟨r, hr, ho⟩ | ⟨hr, ho⟩
    · rw [hr]
      cases r <;> simp [Reg.offset] at ho ⊢ <;> subst ho <;> simp
    · have := ho .cmd
      have := ho .status
      rw [hr]
      simp_all [Reg.offset]
  · cases h

end Sys2Proof.Machine
end

