-- ==== Sys2Proof/Laws/Decode.lean ====
section
/-! SUPPORT. The fields of an assembled word, and the identifier maps. -/

namespace Sys2Proof

/-- The bits of an assembled word, field by field (R56). -/
theorem getLsbD_assembleWord (op : BitVec 4) (s : BitVec 2) (b : Byte) (i : Nat) :
    (assembleWord op s b).getLsbD i =
      if i < 4 then op.getLsbD i
      else if i < 6 then s.getLsbD (i - 4)
      else if i < 8 then false
      else b.getLsbD (i - 8) := by
  simp only [assembleWord, BitVec.getLsbD_append]
  by_cases h0 : i < 4
  · simp [h0]
  by_cases h1 : i < 6
  · have h : i - 4 < 2 := by omega
    simp [h0, h1, h]
  by_cases h2 : i < 8
  · have h : ¬(i - 4 < 2) := by omega
    have h' : i - 4 - 2 < 2 := by omega
    simp [h0, h1, h2, h, h']
  have h : ¬(i - 4 < 2) := by omega
  have h' : ¬(i - 4 - 2 < 2) := by omega
  have e : i - 4 - 2 - 2 = i - 8 := by omega
  by_cases h3 : i - 8 < 8
  · simp only [h0, h1, h2, h, h', e, h3, if_false, if_true]
  · simp only [h0, h1, h2, h, h', e, h3, if_false]
    simp [BitVec.getLsbD_of_ge b (i - 8) (by omega)]

@[simp] theorem opOf_assembleWord (op : BitVec 4) (s : BitVec 2) (b : Byte) : opOf (assembleWord op s b) = op := by
  refine BitVec.eq_of_getLsbD_eq fun i hi => ?_
  simp only [opOf, BitVec.getLsbD_extractLsb', getLsbD_assembleWord]
  simp [hi]

@[simp] theorem idselOf_assembleWord (op : BitVec 4) (s : BitVec 2) (b : Byte) : idselOf (assembleWord op s b) = s := by
  refine BitVec.eq_of_getLsbD_eq fun i hi => ?_
  simp only [idselOf, BitVec.getLsbD_extractLsb', getLsbD_assembleWord]
  have h : 4 + i < 6 := by omega
  simp [hi, h]

@[simp] theorem rsv0Of_assembleWord (op : BitVec 4) (s : BitVec 2) (b : Byte) : rsv0Of (assembleWord op s b) = 0#2 := by
  refine BitVec.eq_of_getLsbD_eq fun i hi => ?_
  simp only [rsv0Of, BitVec.getLsbD_extractLsb', getLsbD_assembleWord]
  have h1 : ¬(6 + i < 4) := by omega
  have h : 6 + i < 8 := by omega
  simp [h, h1]

@[simp] theorem byteOf_assembleWord (op : BitVec 4) (s : BitVec 2) (b : Byte) : byteOf (assembleWord op s b) = b := by
  refine BitVec.eq_of_getLsbD_eq fun i hi => ?_
  simp only [byteOf, BitVec.getLsbD_extractLsb', getLsbD_assembleWord]
  have h1 : ¬(8 + i < 4) := by omega
  have h2 : ¬(8 + i < 6) := by omega
  simp [hi, h1, h2]

@[simp] theorem rsv1Of_assembleWord (op : BitVec 4) (s : BitVec 2) (b : Byte) : rsv1Of (assembleWord op s b) = 0#16 := by
  refine BitVec.eq_of_getLsbD_eq fun i hi => ?_
  simp only [rsv1Of, BitVec.getLsbD_extractLsb', getLsbD_assembleWord]
  have h1 : ¬(16 + i < 4) := by omega
  have h2 : ¬(16 + i < 6) := by omega
  have h : b.getLsbD (16 + i - 8) = false := BitVec.getLsbD_of_ge b _ (by omega)
  simp [h, h1, h2]

@[simp] theorem identifierOfSel_sel (id : Identifier) : identifierOfSel id.sel = id := by cases id <;> decide

@[simp] theorem identifierOfByte_byte (id : Identifier) : identifierOfByte id.byte = some id := by cases id <;> decide

/-- The inverse identifier map answers only for the byte of the identifier it answers (R58). -/
theorem identifierOfByte_some {b : Byte} {id : Identifier} (h : identifierOfByte b = some id) : b = id.byte := by
  unfold identifierOfByte at h
  repeat' split at h
  all_goals first
    | (cases h; assumption)
    | cases h

/-- A word is its fields: the fields determine it (R56). -/
theorem word_ext {v w : Word} (h0 : opOf v = opOf w) (h1 : idselOf v = idselOf w) (h2 : rsv0Of v = rsv0Of w)
    (h3 : byteOf v = byteOf w) (h4 : rsv1Of v = rsv1Of w) : v = w := by
  refine BitVec.eq_of_getLsbD_eq fun i hi => ?_
  by_cases a : i < 4
  · have := congrArg (·.getLsbD i) h0
    simpa [opOf, a] using this
  by_cases b : i < 6
  · have e : 4 + (i - 4) = i := by omega
    have l : i - 4 < 2 := by omega
    have := congrArg (·.getLsbD (i - 4)) h1
    simpa [idselOf, e, l] using this
  by_cases c : i < 8
  · have e : 6 + (i - 6) = i := by omega
    have l : i - 6 < 2 := by omega
    have := congrArg (·.getLsbD (i - 6)) h2
    simpa [rsv0Of, e, l] using this
  by_cases d : i < 16
  · have e : 8 + (i - 8) = i := by omega
    have l : i - 8 < 8 := by omega
    have := congrArg (·.getLsbD (i - 8)) h3
    simpa [byteOf, e, l] using this
  · have e : 16 + (i - 16) = i := by omega
    have l : i - 16 < 16 := by omega
    have := congrArg (·.getLsbD (i - 16)) h4
    simpa [rsv1Of, e, l] using this

end Sys2Proof
end

