-- ==== Sys2Proof/Laws/Memory.lean ====
section
/-! SUPPORT. The laws of cell memory and of the bounded buffers: a read after a write, the canonical form, the contents. -/

namespace Sys2Proof.Machine

/-! ## Read after write -/

@[simp] theorem Memory.read_nil (k : Nat) : Memory.read [] k = none := rfl

theorem Memory.read_write (m : Memory) (k j : Nat) (x : Byte) :
    Memory.read (Memory.write m k x) j = if j = k then some x else Memory.read m j := by
  induction m with
  | nil => simp [Memory.write, Memory.read, eq_comm]
  | cons c m ih =>
    simp only [Memory.write]
    split
    · by_cases hj : j = k
      · simp [Memory.read, hj]
      · simp [Memory.read, hj, Ne.symm hj]
    · split
      · by_cases hj : j = k
        · simp [Memory.read, hj]
        · rename_i h1 h2
          have h3 : c.1 ≠ j := fun h => hj (h ▸ h2.symm)
          simp [Memory.read, hj, Ne.symm hj, h3]
      · simp only [Memory.read, ih]
        by_cases h : c.1 = j
        · rename_i h1 h2
          have : j ≠ k := fun e => h2 (by rw [h, e])
          simp [h, this]
        · simp [h]

theorem Memory.read_write_same (m : Memory) (k : Nat) (x : Byte) : Memory.read (Memory.write m k x) k = some x := by
  simp [Memory.read_write]

theorem Memory.read_write_other (m : Memory) {k j : Nat} (x : Byte) (h : j ≠ k) :
    Memory.read (Memory.write m k x) j = Memory.read m j := by simp [Memory.read_write, h]

theorem Memory.read_writeAll (xs : List Byte) (m : Memory) (k j : Nat) :
    Memory.read (Memory.writeAll m k xs) j =
      if k ≤ j ∧ j < k + xs.length then xs[j - k]? else Memory.read m j := by
  induction xs generalizing m k with
  | nil => simp [Memory.writeAll]
  | cons x xs ih =>
    simp only [Memory.writeAll, ih, Memory.read_write, List.length_cons]
    by_cases hj : j = k
    · subst hj; simp
    · by_cases h : k + 1 ≤ j ∧ j < k + 1 + xs.length
      · have e : j - k = (j - (k + 1)) + 1 := by omega
        have h' : k ≤ j ∧ j < k + (xs.length + 1) := by omega
        rw [if_pos h, if_pos h', e, List.getElem?_cons_succ]
      · have h' : ¬(k ≤ j ∧ j < k + (xs.length + 1)) := by omega
        rw [if_neg h, if_neg h', if_neg hj]

/-! ## The canonical form -/

theorem Memory.mem_write {m : Memory} {k : Nat} {x : Byte} {c : Host.Cell} (h : c ∈ Memory.write m k x) :
    c = (k, x) ∨ c ∈ m := by
  induction m with
  | nil => simpa [Memory.write] using h
  | cons d m ih =>
    simp only [Memory.write] at h
    split at h
    · simpa using h
    · split at h
      · rcases List.mem_cons.1 h with h | h
        · exact .inl h
        · exact .inr (List.mem_cons_of_mem _ h)
      · rcases List.mem_cons.1 h with h | h
        · exact .inr (by simp [h])
        · rcases ih h with h | h
          · exact .inl h
          · exact .inr (List.mem_cons_of_mem _ h)

theorem Memory.wf_nil : Memory.wf [] = true := rfl

theorem Memory.wf_cons {c : Host.Cell} {m : Memory} :
    Memory.wf (c :: m) = true ↔ (∀ d ∈ m, c.1 < d.1) ∧ Memory.wf m = true := by
  simp [Memory.wf]

/-- Every write keeps the canonical form. -/
theorem Memory.wf_write {m : Memory} (h : Memory.wf m = true) (k : Nat) (x : Byte) :
    Memory.wf (Memory.write m k x) = true := by
  induction m with
  | nil => simp [Memory.write, Memory.wf]
  | cons c m ih =>
    obtain ⟨h1, h2⟩ := Memory.wf_cons.1 h
    simp only [Memory.write]
    split
    · rename_i hk
      refine Memory.wf_cons.2 ⟨fun d hd => ?_, h⟩
      rcases List.mem_cons.1 hd with rfl | hd
      · exact hk
      · exact Nat.lt_trans hk (h1 d hd)
    · split
      · rename_i h3 h4
        exact Memory.wf_cons.2 ⟨fun d hd => by simpa [h4] using h1 d hd, h2⟩
      · refine Memory.wf_cons.2 ⟨fun d hd => ?_, ih h2⟩
        rcases Memory.mem_write hd with rfl | hd
        · simp only; omega
        · exact h1 d hd

theorem Memory.wf_writeAll {m : Memory} (h : Memory.wf m = true) (xs : List Byte) (k : Nat) :
    Memory.wf (Memory.writeAll m k xs) = true := by
  induction xs generalizing m k with
  | nil => exact h
  | cons x xs ih => exact ih (Memory.wf_write h k x) (k + 1)

/-- A write to one of the buffer's cells lists no cell beyond the capacity. -/
theorem Memory.within_write {cap : Nat} {m : Memory} (h : Memory.within cap m = true) {k : Nat} (hk : k < cap)
    (x : Byte) : Memory.within cap (Memory.write m k x) = true := by
  simp only [Memory.within, List.all_eq_true, decide_eq_true_eq] at *
  intro c hc
  rcases Memory.mem_write hc with rfl | hc
  · exact hk
  · exact h c hc

theorem Memory.within_writeAll {cap : Nat} {m : Memory} (h : Memory.within cap m = true) (xs : List Byte) {k : Nat}
    (hk : k + xs.length ≤ cap) : Memory.within cap (Memory.writeAll m k xs) = true := by
  induction xs generalizing m k with
  | nil => exact h
  | cons x xs ih =>
    simp only [List.length_cons] at hk
    exact ih (Memory.within_write h (by omega) x) (by omega)

/-- A canonical memory is determined by what its cells read as: equal memories are equal data. -/
theorem Memory.eq_of_read_eq {m n : Memory} (hm : Memory.wf m = true) (hn : Memory.wf n = true)
    (h : ∀ k, Memory.read m k = Memory.read n k) : m = n := by
  induction m generalizing n with
  | nil =>
    cases n with
    | nil => rfl
    | cons d n => simpa [Memory.read] using h d.1
  | cons c m ih =>
    have absent : ∀ {d : Host.Cell} {l : Memory} (k : Nat), (∀ e ∈ l, d.1 < e.1) → k ≤ d.1 → k ≠ d.1 →
        Memory.read (d :: l) k = none := by
      intro d l k hl hk hne
      induction l generalizing d with
      | nil => simp [Memory.read, Ne.symm hne]
      | cons e l ihl =>
        have h1 : d.1 < e.1 := hl e (by simp)
        have h2 : ∀ a ∈ l, d.1 < a.1 := fun a ha => hl a (by simp [ha])
        have := ihl h2 hk hne
        simp only [Memory.read] at this ⊢
        simp only [Ne.symm hne, if_false] at this ⊢
        rw [if_neg (by omega)]
        exact this
    cases n with
    | nil => simpa [Memory.read] using h c.1
    | cons d n =>
      obtain ⟨hc1, hc2⟩ := Memory.wf_cons.1 hm
      obtain ⟨hd1, hd2⟩ := Memory.wf_cons.1 hn
      have e1 : c.1 = d.1 := by
        rcases Nat.lt_trichotomy c.1 d.1 with hlt | heq | hgt
        · have := h c.1
          rw [absent c.1 hd1 (by omega) (by omega)] at this
          simp [Memory.read] at this
        · exact heq
        · have := h d.1
          rw [absent d.1 hc1 (by omega) (by omega)] at this
          simp [Memory.read] at this
      have e2 : c.2 = d.2 := by
        have := h c.1
        simpa [Memory.read, e1] using this
      have e3 : m = n := by
        refine ih hc2 hd2 fun k => ?_
        by_cases hk : k = c.1
        · have nm : ∀ {l : Memory} (q : Nat), (∀ e ∈ l, q < e.1) → Memory.read l q = none := by
            intro l q hl
            induction l with
            | nil => rfl
            | cons e l ihl =>
              have := hl e (by simp)
              simp only [Memory.read]
              rw [if_neg (by omega)]
              exact ihl fun a ha => hl a (by simp [ha])
          rw [hk, nm _ hc1, nm _ (by rw [e1]; exact hd1)]
        · have := h k
          simp only [Memory.read] at this
          rwa [if_neg (Ne.symm hk), if_neg (by rw [← e1]; exact Ne.symm hk)] at this
      rw [e3, Prod.ext e1 e2]

/-! ## Bounded buffers -/

/-- Everything an append can do (R79). -/
theorem Buffer.append_eq {w cap : Nat} (x : Byte) (b : Buffer w) :
    (b.append cap x = none ∧ cap ≤ b.len.toNat) ∨
      (b.len.toNat < cap ∧
        b.append cap x = some { cells := Memory.write b.cells b.len.toNat x, len := BitVec.ofNat w (b.len.toNat + 1) }) := by
  by_cases h : cap ≤ b.len.toNat
  · exact .inl ⟨by simp [Buffer.append, h], h⟩
  · exact .inr ⟨by omega, by simp [Buffer.append, h]⟩

@[simp] theorem Buffer.clear_cells {w : Nat} (b : Buffer w) : b.clear.cells = b.cells := rfl
@[simp] theorem Buffer.clear_len {w : Nat} (b : Buffer w) : b.clear.len = 0#w := rfl

@[simp] theorem State.contents_length (s : State) (b : Buf) : (s.contents b).length = s.fill b := by
  simp [State.contents]

/-- The bytes of a buffer's contents are its cells below the fill count. -/
theorem State.contents_getElem? (s : State) (b : Buf) (i : Nat) :
    (s.contents b)[i]? = if i < s.fill b then some (s.cell b i) else none := by
  by_cases h : i < s.fill b <;> simp [State.contents, h]

theorem State.byteAt_contents {s : State} {b : Buf} {i : Nat} (h : i < s.fill b) :
    byteAt (s.contents b) i = s.cell b i := by
  rw [byteAt, List.getD_eq_getElem?_getD, State.contents_getElem?, if_pos h]
  rfl

theorem State.contents_congr {s t : State} {b : Buf} (hf : t.fill b = s.fill b)
    (hc : ∀ i, i < s.fill b → t.cell b i = s.cell b i) : t.contents b = s.contents b := by
  refine List.ext_getElem? fun i => ?_
  simp only [State.contents_getElem?, hf]
  split
  · rw [hc i ‹_›]
  · rfl

end Sys2Proof.Machine
end

