-- ==== Sys2Proof/Laws/Exec.lean ====
section
/-! SUPPORT. What each command does on every state, as one equation for each way it can end. -/

namespace Sys2Proof.Machine

/-- Every command ends by completing (R66). -/
theorem exec_complete (i : Instr) (s : State) : ∃ (u : State) (c : ResultCode), exec i s = .next (u.complete c) := by
  cases i <;> simp only [exec, execNop, execCsumClear, execCsumFeed, execPlClear, execPlAppend, execEncode,
    execRxClear, execRxAppend, execDecode, execTxClear] <;> (try split) <;> (try split) <;> exact ⟨_, _, rfl⟩

/-! ## The bounded buffers (R83, R85) -/

theorem exec_plAppend_room (b : Byte) {s : State} (h : s.fill .pl < 32) :
    exec (.plAppend b) s = .next (({ s with
      pl := ⟨Memory.write s.pl.cells (s.fill .pl) b, BitVec.ofNat 6 (s.fill .pl + 1)⟩ } : State).complete .ok) := by
  have h' : ¬(32 ≤ s.pl.len.toNat) := by simp only [State.fill] at h; omega
  simp [exec, execPlAppend, Buffer.append, capacity, h', State.fill]

theorem exec_plAppend_full (b : Byte) {s : State} (h : 32 ≤ s.fill .pl) :
    exec (.plAppend b) s = .next (({ s with plOvf := true } : State).complete .capacityExceeded) := by
  have h' : 32 ≤ s.pl.len.toNat := h
  simp [exec, execPlAppend, Buffer.append, capacity, h', State.raise]

theorem exec_rxAppend_room (b : Byte) {s : State} (h : s.fill .rx < 256) :
    exec (.rxAppend b) s = .next (({ s with
      rx := ⟨Memory.write s.rx.cells (s.fill .rx) b, BitVec.ofNat 9 (s.fill .rx + 1)⟩ } : State).complete .ok) := by
  have h' : ¬(256 ≤ s.rx.len.toNat) := by simp only [State.fill] at h; omega
  simp [exec, execRxAppend, Buffer.append, capacity, h', State.fill]

theorem exec_rxAppend_full (b : Byte) {s : State} (h : 256 ≤ s.fill .rx) :
    exec (.rxAppend b) s = .next (({ s with rxOvf := true } : State).complete .capacityExceeded) := by
  have h' : 256 ≤ s.rx.len.toNat := h
  simp [exec, execRxAppend, Buffer.append, capacity, h', State.raise]

/-! ## ENCODE (R94) -/

theorem State.fill_pl_lt (s : State) : s.fill .pl < 64 := s.pl.len.isLt

theorem exec_encode_ok (id : Identifier) (instr : Byte) {s : State} (h : s.plOvf = false) :
    exec (.encode id instr) s =
      .next ((s.commitFrame (frameBytes s.txAddr id instr (s.contents .pl)) (12 + s.fill .pl)
        (frameChecksum id instr (s.contents .pl))).complete .ok) := by
  have := s.fill_pl_lt
  have h' : ¬(256 < 12 + s.fill .pl) := by omega
  simp [exec, execEncode, h, capacity, frameTotal, h']

theorem exec_encode_overflowed (id : Identifier) (instr : Byte) {s : State} (h : s.plOvf = true) :
    exec (.encode id instr) s = .next (s.complete .capacityExceeded) := by
  simp [exec, execEncode, h, State.raise]

/-- The TX cells after a commit (R93). -/
theorem State.commitFrame_cell (s : State) (f : List Byte) (n : Nat) (c : Half) (k : Nat) :
    (s.commitFrame f n c).cell .tx k = (if k < f.length then f[k]? else none).getD (s.cell .tx k) := by
  simp only [State.cell, State.cells, State.commitFrame_tx, Memory.read_writeAll]
  by_cases hk : k < f.length <;> simp [hk]

/-! ## DECODE (R104) -/

theorem exec_decode_error {s : State} {c : ResultCode}
    (h : frameError s.addrCheckEn s.expAddr (s.contents .rx) = some c) :
    exec .decode s = .next (s.complete c) := by
  simp only [exec, execDecode, h]
  rfl

theorem exec_decode_ok {s : State} (h : frameError s.addrCheckEn s.expAddr (s.contents .rx) = none) :
    exec .decode s = .next ((s.recordFrame (s.contents .rx)).complete .ok) := by
  simp only [exec, execDecode, h]

/-- Which errors the checks of DECODE raise. -/
theorem frameError_mem {check : Bool} {a : Word} {rx : List Byte} {code : ResultCode}
    (h : frameError check a rx = some code) :
    code ∈ [ResultCode.badHeader, .unknownIdentifier, .truncated, .checksumMismatch, .badLength,
      .addressMismatch] := by
  simp only [frameError, Option.or_eq_some_iff] at h
  rcases h with h | ⟨_, h | ⟨_, h | ⟨_, h | ⟨_, h⟩⟩⟩⟩
  · unfold headerError at h; split at h <;> [skip; split at h] <;> simp_all
  · unfold addressError at h; split at h <;> [skip; split at h] <;> simp_all
  · unfold identifierError at h; split at h <;> [skip; split at h] <;> simp_all
  · unfold lengthError at h
    split at h <;> [skip; (split at h <;> [skip; split at h])] <;> simp_all
  · unfold checksumError at h; split at h <;> simp_all

end Sys2Proof.Machine
end

