-- ==== Sys2Proof/Laws/Frame.lean ====
section
/-! SUPPORT. The arithmetic of frames: byte sums, big-endian fields, a frame byte by byte, and what the checks of DECODE
see of the cells of RX. -/

namespace Sys2Proof.Machine

/-! ## Byte sums -/

theorem csum16_toNat (bs : List Byte) : (csum16 bs).toNat = byteSum bs % 65536 := by simp [csum16]

theorem byteSum_cons (b : Byte) (bs : List Byte) : byteSum (b :: bs) = b.toNat + byteSum bs := by simp [byteSum]

theorem byteSum_append (bs cs : List Byte) : byteSum (bs ++ cs) = byteSum bs + byteSum cs := by simp [byteSum]

theorem byteSum_le (bs : List Byte) : byteSum bs ≤ 255 * bs.length := by
  induction bs with
  | nil => simp [byteSum]
  | cons b bs ih =>
    have := b.isLt
    rw [byteSum_cons, List.length_cons]
    omega

/-- A flipped bit adds or takes away its weight. -/
theorem flip_toNat (b : Byte) (k : Fin 8) :
    (b ^^^ BitVec.twoPow 8 k.val).toNat = b.toNat + 2 ^ k.val ∨
      (b ^^^ BitVec.twoPow 8 k.val).toNat + 2 ^ k.val = b.toNat := by
  revert b k
  decide +kernel

/-! ## Big-endian fields (R9, R48) -/

theorem unbe16_toNat (a b : Byte) : (unbe16 a b).toNat = a.toNat * 256 + b.toNat := by
  rw [unbe16, BitVec.toNat_append, ← Nat.shiftLeft_add_eq_or_of_lt b.isLt, Nat.shiftLeft_eq]

theorem unbe16_be16 (v : Half) : unbe16 (v.extractLsb' 8 8) (v.extractLsb' 0 8) = v := by
  have := v.isLt
  apply BitVec.eq_of_toNat_eq
  rw [unbe16_toNat]
  simp [Nat.shiftRight_eq_div_pow]
  omega

theorem unbe32_be32 (v : Word) :
    unbe32 (v.extractLsb' 24 8) (v.extractLsb' 16 8) (v.extractLsb' 8 8) (v.extractLsb' 0 8) = v := by
  apply BitVec.eq_of_getLsbD_eq
  intro i hi
  simp only [unbe32, BitVec.getLsbD_append, BitVec.getLsbD_extractLsb']
  by_cases h0 : i < 8
  · simp [h0]
  by_cases h1 : i - 8 < 8
  · simp only [h0, h1, if_false, if_true]
    simp
    congr 1
    omega
  by_cases h2 : i - 8 - 8 < 8
  · simp only [h0, h1, h2, if_false, if_true]
    simp
    congr 1
    omega
  · have h3 : i - 8 - 8 - 8 < 8 := by omega
    simp only [h0, h1, h2, if_false]
    simp [h3]
    congr 1
    omega

/-- The halves of RX_CSUM (R33, R103). -/
theorem csumCalc_append (a b : Half) : csumCalc (a ++ b) = a := by
  apply BitVec.eq_of_getLsbD_eq
  intro i hi
  have : ¬(16 + i < 16) := by omega
  simp only [csumCalc, BitVec.getLsbD_extractLsb', BitVec.getLsbD_append]
  simp [hi]

theorem csumRecv_append (a b : Half) : csumRecv (a ++ b) = b := by
  apply BitVec.eq_of_getLsbD_eq
  intro i hi
  simp only [csumRecv, BitVec.getLsbD_extractLsb', BitVec.getLsbD_append]
  simp [hi]

/-! ## A frame byte by byte (R62) -/

/-- The Length field of a legal frame has a zero high byte. -/
theorem be16_lengthField {d : Nat} (hd : d ≤ 32) : be16 (lengthField d) = [0x00#8, BitVec.ofNat 8 (3 + d)] := by
  revert d
  decide

theorem frameBytes_length (a : Word) (id : Identifier) (instr : Byte) (data : List Byte) :
    (frameBytes a id instr data).length = 12 + data.length := by
  simp [frameBytes, checksumInput, be16, be32]
  omega

theorem checksumInput_eq (id : Identifier) (instr : Byte) {data : List Byte} (hd : data.length ≤ 32) :
    checksumInput id instr data = id.byte :: 0x00#8 :: BitVec.ofNat 8 (3 + data.length) :: instr :: data := by
  simp [checksumInput, be16_lengthField hd]

theorem frameBytes_eq (a : Word) (id : Identifier) (instr : Byte) {data : List Byte} (hd : data.length ≤ 32) :
    frameBytes a id instr data =
      0xEF#8 :: 0x01#8 :: a.extractLsb' 24 8 :: a.extractLsb' 16 8 :: a.extractLsb' 8 8 :: a.extractLsb' 0 8 ::
        id.byte :: 0x00#8 :: BitVec.ofNat 8 (3 + data.length) :: instr ::
          (data ++ be16 (frameChecksum id instr data)) := by
  simp [frameBytes, checksumInput_eq id instr hd, show be16 headerValue = [0xEF#8, 0x01#8] from by decide, be32]

/-! ## What the checks of DECODE see -/

theorem identifierOfByte_eq_none (b : Byte) :
    identifierOfByte b = none ↔ b ∉ [0x01#8, 0x02#8, 0x07#8, 0x08#8] := by
  revert b
  decide +kernel

theorem rxIdValue_byte (id : Identifier) : rxIdValue id.byte = id.sel ++ id.byte := by cases id <;> decide

theorem rxAddress_contents {s : State} (h : 6 ≤ s.fill .rx) : rxAddress (s.contents .rx) = s.frameAddress := by
  simp only [rxAddress, State.frameAddress]
  rw [State.byteAt_contents (by omega), State.byteAt_contents (by omega), State.byteAt_contents (by omega),
    State.byteAt_contents (by omega)]

theorem rxLength_contents {s : State} (h : 9 ≤ s.fill .rx) : rxLength (s.contents .rx) = s.rxHalf 7 := by
  simp only [rxLength, State.rxHalf]
  rw [State.byteAt_contents (by omega), State.byteAt_contents (by omega)]

theorem State.rxHalf_seven_toNat (s : State) : (s.rxHalf 7).toNat = s.frameLength := rfl

theorem headerError_eq_none {s : State} (h : HeaderPasses s) : headerError (s.contents .rx) = none := by
  have h1 := h.1
  rw [headerError, if_neg (by simp; omega), State.byteAt_contents (by omega), State.byteAt_contents (by omega),
    h.2.1, h.2.2]
  simp

theorem addressError_eq_none {s : State} (h : AddressPasses s) :
    addressError s.addrCheckEn s.expAddr (s.contents .rx) = none := by
  have h1 := h.1
  rw [addressError, if_neg (by simp; omega), rxAddress_contents h1, if_neg fun hh => hh.2 (h.2 hh.1)]

theorem identifierError_eq_none {s : State} (h : IdentifierPasses s) : identifierError (s.contents .rx) = none := by
  have h1 := h.1
  rw [identifierError, if_neg (by simp; omega), State.byteAt_contents (by omega), if_neg]
  rw [identifierOfByte_eq_none]
  simp only [List.mem_cons, List.not_mem_nil, or_false, not_not]
  exact h.2

theorem lengthError_eq_none {s : State} (h : LengthPasses s) : lengthError (s.contents .rx) = none := by
  obtain ⟨h1, h2, h3, h4⟩ := h
  simp only [lengthError, State.contents_length, rxLength_contents h1, State.rxHalf_seven_toNat, lenMin, lenMax]
  rw [if_neg (by omega), if_neg (by omega), if_neg (by omega)]

theorem rxRecv_contents {s : State} (h : LengthPasses s) : rxRecv (s.contents .rx) = s.frameRecv := by
  obtain ⟨h1, h2, h3, h4⟩ := h
  simp only [rxRecv, State.frameRecv, rxLength_contents h1, State.rxHalf_seven_toNat]
  rw [State.byteAt_contents (by omega), State.byteAt_contents (by omega), State.rxHalf,
    show 7 + s.frameLength + 1 = 8 + s.frameLength from by omega]

theorem rxCalc_contents {s : State} (h : LengthPasses s) : rxCalc (s.contents .rx) = s.frameCalc := by
  obtain ⟨h1, h2, h3, h4⟩ := h
  simp only [rxCalc, State.frameCalc, rxLength_contents h1, State.rxHalf_seven_toNat]
  congr 1
  apply List.ext_getElem?
  intro k
  simp only [slice, List.getElem?_take, List.getElem?_drop, State.contents_getElem?]
  by_cases hk : k < s.frameLength + 1
  · rw [if_pos (by omega), if_pos (by omega)]
    simp [hk]
  · rw [if_neg (by omega), List.getElem?_eq_none (by simp; omega)]

theorem frameError_eq_none {s : State} (h : FrameAccepted s) :
    frameError s.addrCheckEn s.expAddr (s.contents .rx) = none := by
  obtain ⟨hh, ha, hi, hl, hc⟩ := h
  simp [frameError, headerError_eq_none hh, addressError_eq_none ha, identifierError_eq_none hi,
    lengthError_eq_none hl, checksumError, rxCalc_contents hl, rxRecv_contents hl, hc]

end Sys2Proof.Machine
end

