-- ==== Sys2Proof/Laws/PerInstr.lean ====
section
/-! SUPPORT. The family LegalEncoding: the word the encoder gives a command is legal by R60 (spec/30_encoding.md). -/

namespace Sys2Proof.Laws.LegalEncoding

/-- The command's word is legal. -/
def Statement (i : Instr) : Prop := legalWord (encode i) = true

/-- A word with a known OP and nothing set but the operands that OP takes is legal. -/
theorem legal_assembleWord {op : BitVec 4} {s : BitVec 2} {b : Byte} (h : op.toNat < 10)
    (hs : s = 0#2 ∨ op = 5#4) (hb : b = 0#8 ∨ [0#4, 1#4, 3#4, 6#4, 8#4, 9#4].contains op = false) :
    legalWord (assembleWord op s b) = true := by
  have h0 := opOf_assembleWord op s b
  have h1 := idselOf_assembleWord op s b
  have h2 := rsv0Of_assembleWord op s b
  have h3 := byteOf_assembleWord op s b
  have h4 := rsv1Of_assembleWord op s b
  unfold opOf at h0
  unfold idselOf at h1
  unfold rsv0Of at h2
  unfold byteOf at h3
  unfold rsv1Of at h4
  have n : ¬ 10 ≤ op.toNat := by omega
  simp only [legalWord, reservedOp, reservedBitsSet, unusedIdsel, unusedByte, h0, h1, h2, h3, h4]
  rcases hs with rfl | rfl <;> rcases hb with rfl | hb <;> simp_all

theorem nop : Statement .nop := legal_assembleWord (by decide) (.inl rfl) (.inl rfl)
theorem csumClear : Statement .csumClear := legal_assembleWord (by decide) (.inl rfl) (.inl rfl)
theorem csumFeed (b : Byte) : Statement (.csumFeed b) := legal_assembleWord (by decide) (.inl rfl) (.inr rfl)
theorem plClear : Statement .plClear := legal_assembleWord (by decide) (.inl rfl) (.inl rfl)
theorem plAppend (b : Byte) : Statement (.plAppend b) := legal_assembleWord (by decide) (.inl rfl) (.inr rfl)
theorem encode (id : Identifier) (b : Byte) : Statement (.encode id b) :=
  legal_assembleWord (by decide) (.inr rfl) (.inr rfl)
theorem rxClear : Statement .rxClear := legal_assembleWord (by decide) (.inl rfl) (.inl rfl)
theorem rxAppend (b : Byte) : Statement (.rxAppend b) := legal_assembleWord (by decide) (.inl rfl) (.inr rfl)
theorem decode : Statement .decode := legal_assembleWord (by decide) (.inl rfl) (.inl rfl)
theorem txClear : Statement .txClear := legal_assembleWord (by decide) (.inl rfl) (.inl rfl)

end Sys2Proof.Laws.LegalEncoding
end

