-- ==== Sys2Proof/Laws/Step.lean ====
section
/-! SUPPORT. What a step can do: whose turn it is, the engine's turn, the host's turn. -/

namespace Sys2Proof.Machine

/-- A step is the host's turn, the engine's turn or the reset input, after a turn has been taken from the schedule. -/
theorem step_cases {s t : State} (h : step s = .next t) :
    ∃ ts, ({ s with schedule := ts } : State).hostTurn = .next t ∨
      ({ s with schedule := ts } : State).engineTurn = .next t ∨
      t = ({ s with schedule := ts } : State).assertReset := by
  have ht : ∃ ts, s.takeTurn.2 = { s with schedule := ts } := by
    unfold State.takeTurn
    split
    · exact ⟨_, rfl⟩
    · split <;> exact ⟨_, rfl⟩
  obtain ⟨ts, ht⟩ := ht
  refine ⟨ts, ?_⟩
  unfold step at h
  split at h <;> rename_i u hu <;> rw [hu] at ht <;> simp only at ht <;> subst ht
  · exact .inl h
  · exact .inr (.inl h)
  · cases h
    exact .inr (.inr rfl)

/-- The engine's turn (R65). -/
theorem engineTurn_cases {s t : State} (h : s.engineTurn = .next t) :
    (s.pending = none ∧ t = s) ∨
      ∃ w, s.pending = some w ∧
        ((∃ i, decode w = .ok i ∧ exec i s = .next t) ∨
          ((∃ e, decode w = .error e) ∧ t = s.complete .illegalCommand)) := by
  unfold State.engineTurn at h
  split at h
  · cases h
    exact .inl ⟨‹_›, rfl⟩
  · rename_i w hw
    refine .inr ⟨w, hw, ?_⟩
    split at h
    · exact .inl ⟨_, ‹_›, h⟩
    · cases h
      exact .inr ⟨⟨_, ‹_›⟩, rfl⟩

/-- The engine completes whatever is pending (R66). -/
theorem engineTurn_completes {s : State} (h : s.pending ≠ none) :
    ∃ u c, s.engineTurn = .next (State.complete c u) := by
  unfold State.engineTurn
  cases hp : s.pending with
  | none => exact (h hp).elim
  | some w =>
    cases hd : decode w with
    | ok i =>
      obtain ⟨u, c, h⟩ := exec_complete i s
      exact ⟨u, c, by simpa [hd] using h⟩
    | error e => exact ⟨s, _, by simp [hd]; rfl⟩

theorem branch_state {s t : State} {l : HostLabel} (h : s.branch l = .next t) : ∃ h, t = { s with host := h } := by
  unfold State.branch at h
  split at h <;> cases h
  exact ⟨_, rfl⟩

theorem writeWord_draws (s : State) (d off : Nat) (v : Word) :
    ({ s with draws := d } : State).writeWord off v = { s.writeWord off v with draws := d } := by
  unfold State.writeWord
  split
  · unfold State.issue
    cases s.pending <;> rfl
  all_goals rfl

/-- All the host's turn can do: one write to the block, or none; draws; its own program counter and variables. -/
theorem hostTurn_cases {s t : State} (hs : s.hostTurn = .next t) :
    ∃ u d h, HostWrite s u ∧ t = { u with draws := d, host := h } := by
  unfold State.hostTurn at hs
  split at hs
  · rename_i st _
    cases st with
    | memWrite off n e =>
      simp only [State.hostStmt] at hs
      split at hs
      · rename_i u hu
        cases hs
        have : ∃ d, (s.busWord (s.eval e)).2 = { s with draws := d } := by
          unfold State.busWord
          split
          exacts [⟨_, rfl⟩, ⟨_, rfl⟩]
        obtain ⟨d, hd⟩ := this
        rw [hd] at hu
        simp only [State.memWrite] at hu
        split at hu <;> cases hu
        exact ⟨_, d, _, writeWord_hostWrite s _ _, by rw [writeWord_draws]; rfl⟩
      · cases hs
    | memRead off n v =>
      simp only [State.hostStmt] at hs
      split at hs
      · rename_i r hr
        cases hs
        obtain ⟨x, u⟩ := r
        rcases memRead_state hr with rfl | rfl
        · exact ⟨_, _, _, .ignored _, rfl⟩
        · exact ⟨_, _, _, .ignored _, rfl⟩
      · cases hs
    | bnz t m l =>
      simp only [State.hostStmt] at hs
      split at hs
      · obtain ⟨h, rfl⟩ := branch_state hs
        exact ⟨_, _, h, .ignored _, rfl⟩
      · cases hs
        exact ⟨_, _, _, .ignored _, rfl⟩
    | set v e =>
      cases hs
      exact ⟨_, _, _, .ignored _, rfl⟩
    | blt a b l =>
      simp only [State.hostStmt] at hs
      split at hs
      · obtain ⟨h, rfl⟩ := branch_state hs
        exact ⟨_, _, h, .ignored _, rfl⟩
      · cases hs
        exact ⟨_, _, _, .ignored _, rfl⟩
    | label l =>
      cases hs
      exact ⟨_, _, _, .ignored _, rfl⟩
  · cases hs
    exact ⟨_, _, _, .ignored _, rfl⟩

/-- The host's turn is never refused. -/
theorem hostTurn_not_refused (s : State) (r : Refusal) : s.hostTurn ≠ .refused r := by
  unfold State.hostTurn
  split
  · rename_i st _
    cases st <;> simp only [State.hostStmt]
    · split <;> simp
    · split <;> simp
    · unfold State.branch; split <;> [split; skip] <;> simp
    · simp
    · unfold State.branch; split <;> [split; skip] <;> simp
    · simp
  · simp

end Sys2Proof.Machine
end

