-- ==== Sys2Proof/Tests/Slice0.lean ====
section
/-! SUPPORT. The model's own tests: ill-formed terms refused, words written out from spec/30_encoding.md, the vectors of
spec/95_test_vectors.md one step at a time, and for each statement with hypotheses a witness that meets them. -/

namespace Sys2Proof.Machine.Tests

/-! ## Small states -/

/-- The state after an outcome, if there is one. -/
def after : Result → Option State
  | .next s => some s
  | .fault _ => none
  | .refused _ => none

/-- The result register fields of an outcome. -/
def readBack : Except Fault (Word × State) → Option Word
  | .ok r => some r.1
  | .error _ => none

/-- The state after an admitted write. -/
def written : Except Fault State → Option State
  | .ok s => some s
  | .error _ => none

/-- After reset, with `bs` staged in PL. -/
def withPl (bs : List Byte) : State :=
  { State.reset with pl := { cells := Memory.writeAll [] 0 bs, len := BitVec.ofNat 6 bs.length } }

/-- After reset, with `bs` received in RX. -/
def withRx (bs : List Byte) : State :=
  { State.reset with rx := { cells := Memory.writeAll [] 0 bs, len := BitVec.ofNat 9 bs.length } }

/-- After reset, with `n` bytes counted in RX and none of them listed. -/
def rxCount (n : Nat) : State := { State.reset with rx := { cells := [], len := BitVec.ofNat 9 n } }

/-- After reset, with the word pending. -/
def busyWith (w : Word) : State := { State.reset with pending := some w, busy := true }

/-- Frame A of spec/95_test_vectors.md. -/
def frameA : List Byte :=
  [0xEF#8, 0x01#8, 0xFF#8, 0xFF#8, 0xFF#8, 0xFF#8, 0x01#8, 0x00#8, 0x07#8, 0x35#8, 0x01#8, 0xFF#8, 0x03#8, 0x00#8,
    0x01#8, 0x40#8]

/-- The frame of V-ENC-5: an acknowledgement of address 0x12345678. -/
def frameAck : List Byte :=
  [0xEF#8, 0x01#8, 0x12#8, 0x34#8, 0x56#8, 0x78#8, 0x07#8, 0x00#8, 0x03#8, 0x00#8, 0x00#8, 0x0A#8]

/-- The shorter frame of V-DEC-14 with its two trailing bytes. -/
def frameResplit : List Byte :=
  [0xEF#8, 0x01#8, 0xFF#8, 0xFF#8, 0xFF#8, 0xFF#8, 0x01#8, 0x00#8, 0x05#8, 0x00#8, 0x00#8, 0x00#8, 0x00#8, 0x06#8,
    0x00#8, 0x0E#8]

/-- The state with bit `k` of RX cell `i` flipped. -/
def flipRx (s : State) (i : Nat) (k : Fin 8) : State :=
  { s with rx := { cells := Memory.write s.rx.cells i (s.cell .rx i ^^^ BitVec.twoPow 8 k.val), len := s.rx.len } }

/-! ## Ill-formed terms are refused (R60, R61) -/

theorem test_illformed_reserved_op : legalWord 0x0000000A#32 = false ∧ legalWord 0x0000000F#32 = false := by decide
theorem test_illformed_rsv0 : legalWord 0x00003545#32 = false ∧ legalWord 0x00000080#32 = false := by decide
theorem test_illformed_rsv1 : legalWord 0x00010002#32 = false ∧ legalWord 0x80000005#32 = false := by decide
theorem test_illformed_idsel : legalWord 0x00000012#32 = false ∧ legalWord 0x00000020#32 = false := by decide
theorem test_illformed_byte : legalWord 0x00000101#32 = false ∧ legalWord 0x00008009#32 = false := by decide
theorem test_wellformed_word : legalWord 0x0000FF35#32 = true ∧ legalWord 0x0000FF02#32 = true := by decide

theorem test_illformed_label_twice :
    programWellFormed [.label (.user 0), .label (.user 0), .bnz (.lit 1) (.lit 1) (.user 0)] = false := by decide
theorem test_illformed_label_missing :
    programWellFormed [.label (.user 0), .blt (.lit 0) (.lit 1) (.user 1)] = false := by decide
theorem test_wellformed_wait : programWellFormed (assembleProgram (.issue .nop (.issue .decode .done))) = true := by
  decide

/-! ## Decoding: each command's word, written from R56 and R59 -/

-- OP 3:0 = 0x0, all else 0
theorem test_decode_nop : decode 0x00000000#32 = .ok .nop := by decide
-- OP = 0x1
theorem test_decode_csumClear : decode 0x00000001#32 = .ok .csumClear := by decide
-- BYTE 15:8 = 0xFF, OP = 0x2 (V-CS-13)
theorem test_decode_csumFeed : decode 0x0000FF02#32 = .ok (.csumFeed 0xFF#8) := by decide
-- OP = 0x3 (V-BB-4)
theorem test_decode_plClear : decode 0x00000003#32 = .ok .plClear := by decide
-- BYTE = 0xAA, OP = 0x4 (V-BB-2)
theorem test_decode_plAppend : decode 0x0000AA04#32 = .ok (.plAppend 0xAA#8) := by decide
-- BYTE = 0x35, IDSEL 5:4 = 0, OP = 0x5 (V-ENC-1)
theorem test_decode_encode_command : decode 0x00003505#32 = .ok (.encode .command 0x35#8) := by decide
-- IDSEL = 1, 2 and 3 (V-ENC-4, V-ENC-5, V-ENC-3)
theorem test_decode_encode_idsel : decode 0x00000015#32 = .ok (.encode .data 0x00#8) ∧
    decode 0x00000025#32 = .ok (.encode .acknowledge 0x00#8) ∧
    decode 0x0000FF35#32 = .ok (.encode .endOfData 0xFF#8) := by decide
-- OP = 0x6 (V-BB-8)
theorem test_decode_rxClear : decode 0x00000006#32 = .ok .rxClear := by decide
-- BYTE = 0xEF, OP = 0x7 (V-BB-6)
theorem test_decode_rxAppend : decode 0x0000EF07#32 = .ok (.rxAppend 0xEF#8) := by decide
-- OP = 0x8
theorem test_decode_decode : decode 0x00000008#32 = .ok .decode := by decide
-- OP = 0x9 (V-BB-9)
theorem test_decode_txClear : decode 0x00000009#32 = .ok .txClear := by decide
-- V-CMD-2 to V-CMD-7
theorem test_decode_illegal : decode 0x0000000A#32 = .error .reservedOp ∧ decode 0x0000000F#32 = .error .reservedOp ∧
    decode 0x00000101#32 = .error .unusedOperand ∧ decode 0x00000012#32 = .error .unusedOperand ∧
    decode 0x00010002#32 = .error .reservedBits ∧ decode 0x00003545#32 = .error .reservedBits := by decide
-- the table's bit numbering: bits above nbits are 0
theorem test_decodeTableWord : decodeTableWord 32 0x3505 = some (.encode .command 0x35#8) ∧
    decodeTableWord 8 0x05 = some (.encode .command 0x00#8) ∧ decodeTableWord 32 0x3545 = none := by decide

/-! ## The vectors of spec/95_test_vectors.md, one step each -/

-- V-CMD-12
theorem test_nop : (after (exec .nop { State.reset with err := .checksumMismatch, done := true })).map State.statusWord =
    some 0x002#32 := by decide
-- V-CS-11
theorem test_csumClear : (after (exec .csumClear { State.reset with csumAcc := 0x1234#16 })).map State.csumAcc =
    some 0x0000#16 := by decide
-- V-CS-12 and V-CS-14
theorem test_csumFeed_wraps :
    (after (exec (.csumFeed 0x01#8) { State.reset with csumAcc := 0xFFFF#16 })).map State.csumAcc = some 0x0000#16 ∧
    (after (exec (.csumFeed 0xFF#8) { State.reset with csumAcc := 0xFFFF#16 })).map State.csumAcc =
      some 0x00FE#16 := by decide
-- V-BB-4
theorem test_plClear :
    (after (exec .plClear { withPl (List.replicate 32 0xAA#8) with plOvf := true })).map
      (fun t => (t.fill .pl, t.statusWord)) = some (0, 0x002#32) := by decide +kernel
-- V-BB-2
theorem test_plAppend_last :
    (after (exec (.plAppend 0xAA#8) (withPl (List.replicate 31 0x00#8)))).map
      (fun t => (t.fill .pl, t.cell .pl 31, t.statusWord)) = some (32, 0xAA#8, 0x002#32) := by decide +kernel
-- V-BB-3
theorem test_plAppend_full :
    (after (exec (.plAppend 0xAA#8) (withPl (List.replicate 32 0x00#8)))).map
      (fun t => (t.fill .pl, t.cell .pl 31, t.statusWord)) = some (32, 0x00#8, 0x112#32) := by decide +kernel
-- V-ENC-1
theorem test_encode :
    (after (exec (.encode .command 0x35#8) (withPl [0x01#8, 0xFF#8, 0x03#8, 0x00#8]))).map
      (fun t => (t.contents .tx, t.txCsum, t.statusWord)) = some (frameA, 0x0140#16, 0x002#32) := by decide +kernel
-- V-ENC-5
theorem test_encode_address :
    (after (exec (.encode .acknowledge 0x00#8) { State.reset with txAddr := 0x12345678#32 })).map
      (fun t => (t.contents .tx, t.fill .tx)) = some (frameAck, 12) := by decide +kernel
-- V-BB-8
theorem test_rxClear :
    (after (exec .rxClear { rxCount 256 with rxOvf := true })).map (fun t => (t.fill .rx, t.statusWord)) =
      some (0, 0x002#32) := by decide
-- V-BB-6
theorem test_rxAppend :
    (after (exec (.rxAppend 0xEF#8) State.reset)).map (fun t => (t.fill .rx, t.cell .rx 0)) = some (1, 0xEF#8) := by
  decide
-- V-BB-7
theorem test_rxAppend_full :
    (after (exec (.rxAppend 0x00#8) (rxCount 256))).map (fun t => (t.fill .rx, t.statusWord)) =
      some (256, 0x212#32) := by decide
-- V-BB-9
theorem test_txClear :
    (after (exec .txClear { State.reset with tx := { cells := [], len := 16#9 }, txCsum := 0x0140#16 })).map
      (fun t => (t.fill .tx, t.regValue .txCsum)) = some (0, 0x00000140#32) := by decide
-- V-DEC-1
theorem test_decode : (after (exec .decode (withRx frameA))).map
    (fun t => [t.regValue .rxId, t.rxAddr, t.regValue .rxFlen, t.regValue .rxCode, t.regValue .rxDlen, t.rxCsum]) =
      some [0x00000001#32, 0xFFFFFFFF#32, 7#32, 0x35#32, 4#32, 0x01400140#32] := by decide +kernel
-- V-DEC-14
theorem test_decode_resplit : (after (exec .decode (withRx frameResplit))).map
    (fun t => [t.statusWord, t.regValue .rxFlen, t.regValue .rxDlen, t.rxCsum]) =
      some [0x002#32, 5#32, 2#32, 0x00060006#32] := by decide +kernel
-- V-CMD-2: an illegal word at its engine step
theorem test_illegal_word : (after (busyWith 0x0000000A#32).engineTurn).map State.statusWord = some 0x082#32 := by decide

/-! ## The host bus and the host (V-BUS, R61) -/

-- V-BUS-1, V-BUS-2, V-BUS-3, V-BUS-6
theorem test_bus_reads : readBack (State.reset.memRead 0x000 4) = some 0#32 ∧
    readBack (State.reset.memRead 0x040 4) = some 0x01000020#32 ∧
    readBack (State.reset.memRead 0xC80 4) = some 0#32 ∧ readBack (State.reset.memRead 0xFFC 4) = some 0#32 ∧
    readBack (State.reset.memRead 0x00C 4) = some 0xFFFFFFFF#32 := by decide
-- V-BUS-4, V-BUS-5
theorem test_bus_writes :
    (written (State.reset.memWrite 0x008 4 0xFFFFFFFF#32)).map (State.regValue · .ctrl) = some 0x00000001#32 ∧
    written (State.reset.memWrite 0x01C 4 0x00000005#32) = some State.reset := by decide
-- V-BUS-7, V-BUS-8
theorem test_bus_faults : State.reset.memRead 0x006 4 = .error (.busAccessFault 0x006 4) ∧
    State.reset.memRead 0x004 2 = .error (.busAccessFault 0x004 2) ∧
    State.reset.memWrite 0x000 1 0#32 = .error (.busAccessFault 0x000 1) := by decide
-- V-BUS-9
theorem test_bus_window : readBack ((withRx frameA).memRead 0x824 4) = some 0x35#32 ∧
    readBack ((withRx frameA).memRead 0x83C 4) = some 0x40#32 := by decide +kernel
-- V-BUS-11: a stale cell reads as a draw
theorem test_bus_stale : readBack (State.reset.memRead 0x800 4) = some ((Config.draw 8 0).setWidth 32) := rfl
-- V-CMD-9, V-CMD-10, V-CMD-11
theorem test_status_write :
    (({ State.reset with done := true, cmdOvr := true } : State).writeStatus 0x00000400#32).statusWord = 0x002#32 ∧
    (({ State.reset with done := true } : State).writeStatus 0xFFFFFFFD#32).statusWord = 0x002#32 ∧
    (({ State.reset with done := true } : State).writeStatus 0x00000002#32).statusWord = 0x000#32 := by decide
-- R61's example: ISSUE ENC Command, 0x35 writes 0x00003505 and waits on STATUS bit 0
theorem test_issue_expands : assembleProgram (.issue (.encode .command 0x35#8) .done) =
    [ .memWrite (.off .cmd) 4 (.lit 0x00003505), .label (.fresh 0), .memRead (.off .status) 4 (.fresh 0),
      .bnz (.var (.fresh 0)) (.lit 1) (.fresh 0) ] := by decide
-- REPEAT writes its body out, each WAIT with a label of its own
theorem test_repeat_expands : (assembleProgram (.times 2 (.wait .done) .done)).length = 6 ∧
    definedLabels (assembleProgram (.times 2 (.wait .done) .done)) = [.fresh 0, .fresh 1] := by decide
-- V-CMD-8: the second NOP is discarded where the engine did not step between the writes
theorem test_command_overrun : (State.reset.issue 0#32).issue 0#32 =
    { State.reset with pending := some 0#32, busy := true, cmdOvr := true } := by decide
-- log entry 2: the placed word is what the next step runs
theorem test_withFetchWord : step (State.reset.withFetchWord 32 0x00000102) =
    exec (.csumFeed 0x01#8) { State.reset with pending := some 0x102#32, busy := true } := by rfl

-- R70: both flows are well formed, one after the other; DEC and its WAIT are followed by the reads of STATUS and the result
-- registers, and the transmit flow ends in TX.CLR and its WAIT where the host chooses so
theorem test_flows_wellFormed : programWellFormed (assembleProgram
    (transmitSource 0 .command 0x35#8 [0x01#8] true (receiveSource [0xEF#8] (transmitSource 2 .data 0#8 [] false .done)))) =
      true := by decide +kernel
theorem test_flows_end : (assembleProgram (receiveSource [] .done)).drop 8 =
      [rd (.off .status) (.user 4), rd (.off .rxId) (.user 5), rd (.off .rxAddr) (.user 6), rd (.off .rxFlen) (.user 7),
        rd (.off .rxCode) (.user 8), rd (.off .rxDlen) (.user 9), rd (.off .rxCsum) (.user 10)] ∧
    (assembleProgram (transmitSource 0 .command 0x35#8 [] true .done)).drop 18 = issueCode .txClear :: waitCode 2 := by
  decide +kernel

/-! ## Witnesses: the hypotheses of each statement can be met -/

/-! ### Encoding and the command cycle -/

theorem test_witness_DecodedWordIsTheCommandsWord : decode 0x0000FF35#32 = .ok (.encode .endOfData 0xFF#8) := by decide

/-- A state with an ENCODE pending, at the engine's turn. -/
def engineNext : State := { busyWith 0x00003505#32 with schedule := [.engine, .host] }

theorem test_witness_EngineStepRunsThePendingCommand : engineNext.pending = some 0x00003505#32 ∧
    decode 0x00003505#32 = .ok (.encode .command 0x35#8) ∧ engineNext.schedule = .engine :: [.host] ∧
    (busyWith 0x00003505#32).schedule = [] ∧ decode 0x0000000A#32 = .error .reservedOp := by decide

theorem test_witness_NopOnlyCompletes : opOf 0x00000100#32 = 0#4 ∧ (0x00000100#32 : Word) ≠ 0#32 ∧
    (busyWith 0x00000100#32).pending = some 0x00000100#32 := by decide

theorem test_witness_IllegalWordIsAcceptedAndCompletes : legalWord 0x00010002#32 = false ∧
    ({ State.reset with schedule := [.engine] } : State).pending = none ∧
    ({ State.reset with schedule := [.engine] } : State).schedule = .engine :: [] := by decide

theorem test_witness_CommandWriteIsAcceptedOrDiscarded :
    State.reset.pending = none ∧ (busyWith 0#32).pending = some 0#32 ∧ legalWord 0xA#32 = false ∧
    State.reset.memWrite 0x000 4 0xA#32 = .ok (busyWith 0xA#32) := by decide

/-- Each code of R110 that a command raises, from a state that makes it raise it (V-BB-3, V-BB-7, V-ENC-7, V-DEC-3, V-DEC-4,
V-DEC-7, V-DEC-9, V-DEC-11, V-DEC-16). -/
theorem test_witness_CommandsRaiseOnlyTheirOwnCodes :
    (after (exec (.plAppend 0#8) (withPl (List.replicate 32 0#8)))).map State.err = some .capacityExceeded ∧
    (after (exec (.rxAppend 0#8) (rxCount 256))).map State.err = some .capacityExceeded ∧
    (after (exec (.encode .command 0x35#8) { State.reset with plOvf := true })).map State.err =
      some .capacityExceeded ∧
    (after (exec .decode (withRx [0xEF#8, 0x00#8]))).map State.err = some .badHeader ∧
    (after (exec .decode (flipRx (withRx frameA) 10 0))).map State.err = some .checksumMismatch ∧
    (after (exec .decode (withRx [0x00#8]))).map State.err = some .truncated ∧
    (after (exec .decode (flipRx (withRx frameA) 6 1))).map State.err = some .unknownIdentifier ∧
    (after (exec .decode (flipRx (withRx frameA) 7 0))).map State.err = some .badLength ∧
    (after (exec .decode { withRx frameA with addrCheckEn := true, expAddr := 1#32 })).map State.err =
      some .addressMismatch := by decide +kernel

theorem test_witness_CompletedBlockAcceptsTheNextWord : exec .nop State.reset = .next (State.reset.complete .ok) ∧
    (busyWith 0xA#32).pending = some 0xA#32 ∧
    (busyWith 0xA#32).engineTurn = .next ((busyWith 0xA#32).complete .illegalCommand) := ⟨rfl, rfl, rfl⟩

/-- A program whose first statement is an access R42 does not admit. -/
def faultingHost : State :=
  { busyWith 0#32 with host := { program := [.memRead (.lit 6) 4 (.user 0)], pc := 0, vars := [] }, schedule := [.host] }

theorem test_witness_PendingCommandCompletesUnderEverySchedule :
    faultingHost.pending ≠ none ∧ Turn.reset ∉ faultingHost.schedule ∧
    (busyWith 0#32).pending ≠ none ∧ Turn.reset ∉ (busyWith 0#32).schedule := by decide

theorem test_witness_CommandOverrunStaysUntilCleared :
    written (({ State.reset with cmdOvr := true } : State).memWrite 0x004 4 0x400#32) = some State.reset ∧
    written (({ State.reset with cmdOvr := true } : State).memWrite 0x004 4 0xFFFFFBFF#32) =
      some { State.reset with cmdOvr := true } := by decide

/-! ### Checksum and buffers -/

theorem test_witness_StreamedBytesLeaveTheirChecksum : State.reset.csumAcc = 0#16 ∧
    Instr.csumClear ∉ [Instr.csumFeed 1#8, .nop, .csumFeed 2#8] := by decide

/-- V-CS-4 and V-CS-5, V-CS-7, and the largest payload. -/
theorem test_witness_ChecksumHasTheListedProperties : List.Perm [0x01#8, 0x02#8] [0x02#8, 0x01#8] ∧
    byteSum (List.replicate 257 0xFF#8 ++ [0x01#8]) = 65536 ∧ (List.replicate 32 0xFF#8).length ≤ 32 :=
  ⟨.swap _ _ _, by decide +kernel, by decide⟩

/-- R82's example: PL_LEN = 32 and PL_OVF = 1, then PL_CLEAR. -/
theorem test_witness_PlClearEmptiesThePayload :
    (after (exec .plClear { withPl (List.replicate 32 0#8) with plOvf := true })).map State.plOvf = some false := by
  decide +kernel

theorem test_witness_PlAppendStoresOrOverflows : State.reset.fill .pl < 32 ∧
    (withPl (List.replicate 31 0#8)).fill .pl < 32 ∧ (withPl (List.replicate 32 0#8)).fill .pl = 32 := by
  decide +kernel

theorem test_witness_RxAppendStoresOrOverflows :
    State.reset.fill .rx < 256 ∧ (rxCount 255).fill .rx < 256 ∧ (rxCount 256).fill .rx = 256 := by decide

/-- A full payload that overflowed, with PL_CLEAR pending at the engine's turn, and with a reset next. -/
theorem test_witness_PayloadOverflowStaysUntilPlClear :
    ((after (step { busyWith (encode .plClear) with plOvf := true })).map State.plOvf = some false) ∧
    ((after (step { State.reset with plOvf := true, schedule := [.reset] })).map State.plOvf = some false) ∧
    ((after (step { busyWith (encode .nop) with plOvf := true })).map State.plOvf = some true) := by decide

/-! ### Encoder -/

theorem test_witness_EncodeBuildsTheFrameOrFails : State.reset.plOvf = false ∧ State.reset.fill .pl = 0 ∧
    (withPl (List.replicate 32 0xFF#8)).plOvf = false ∧ (withPl (List.replicate 32 0xFF#8)).fill .pl = 32 ∧
    ({ State.reset with plOvf := true } : State).plOvf = true := by
  decide +kernel

theorem test_witness_FrameHasTheWireLayout :
    ([] : List Byte).length ≤ 32 ∧ (List.replicate 32 0xFF#8).length ≤ 32 := by decide

theorem test_witness_EncodedFrameMeetsPacketInvariants : (withPl (List.replicate 32 0xFF#8)).fill .pl ≤ 32 ∧
    (after (exec (.encode .endOfData 0xFF#8) (withPl (List.replicate 32 0xFF#8)))).map State.err = some .ok := by
  decide +kernel

/-- Two states that agree in ENCODE's inputs and in nothing else that a command writes. -/
def otherEncodeInputs : State := { withPl [0x01#8] with csumAcc := 0x1234#16, txCsum := 0x5678#16, rxOvf := true }

theorem test_witness_EncodeDependsOnItsInputsOnly : (withPl [0x01#8]).plOvf = otherEncodeInputs.plOvf ∧
    (withPl [0x01#8]).txAddr = otherEncodeInputs.txAddr ∧
    (withPl [0x01#8]).fill .pl = otherEncodeInputs.fill .pl ∧
    (∀ i, i < (withPl [0x01#8]).fill .pl → (withPl [0x01#8]).cell .pl i = otherEncodeInputs.cell .pl i) ∧
    (after (exec (.encode .command 0#8) (withPl [0x01#8]))).map State.err = some .ok ∧
    (after (exec (.encode .command 0#8) otherEncodeInputs)).map State.err = some .ok :=
  ⟨rfl, rfl, rfl, fun _ _ => rfl, by decide +kernel, by decide +kernel⟩

theorem test_witness_PendingEncodeSeesTheAddressWrittenBefore : State.reset.plOvf = false ∧
    State.reset.memWrite 0x00C 4 0x12345678#32 = .ok { State.reset with txAddr := 0x12345678#32 } := ⟨rfl, rfl⟩

/-! ### Decoder -/

theorem test_frameA_header : HeaderPasses (withRx frameA) := by
  unfold HeaderPasses
  decide +kernel
theorem test_frameA_address (b : Bool) : AddressPasses { withRx frameA with addrCheckEn := b } := by
  unfold AddressPasses
  revert b
  decide +kernel
theorem test_frameA_identifier : IdentifierPasses (withRx frameA) := by
  unfold IdentifierPasses
  decide +kernel
theorem test_frameA_length : LengthPasses (withRx frameA) := by
  unfold LengthPasses
  decide +kernel

/-- Frame A is accepted, with the address check off (V-DEC-1) and on (V-DEC-17). -/
theorem test_witness_DecodeRecordsAnAcceptedFrame (b : Bool) : FrameAccepted { withRx frameA with addrCheckEn := b } :=
  ⟨test_frameA_header, test_frameA_address b, test_frameA_identifier, test_frameA_length,
    by cases b <;> decide +kernel⟩

/-- No byte, one byte; each of the two header bytes wrong, in a buffer of just two bytes. -/
theorem test_witness_DecodeChecksTheHeader : State.reset.fill .rx < 2 ∧ (withRx [0xEF#8]).fill .rx < 2 ∧
    2 ≤ (withRx [0xEF#8, 0x00#8]).fill .rx ∧ (withRx [0xEF#8, 0x00#8]).cell .rx 1 ≠ 0x01#8 ∧
    2 ≤ (withRx [0x01#8, 0x01#8]).fill .rx ∧ (withRx [0x01#8, 0x01#8]).cell .rx 0 ≠ 0xEF#8 := by decide +kernel

/-- The first 2 and 5 bytes of Frame A; the first 6 with another expected address. -/
theorem test_witness_DecodeChecksTheAddress :
    (HeaderPasses (withRx (frameA.take 2)) ∧ (withRx (frameA.take 2)).fill .rx < 6) ∧
    (HeaderPasses (withRx (frameA.take 5)) ∧ (withRx (frameA.take 5)).fill .rx < 6) ∧
    (HeaderPasses { withRx (frameA.take 6) with addrCheckEn := true, expAddr := 1#32 } ∧
      6 ≤ (withRx (frameA.take 6)).fill .rx ∧ (withRx (frameA.take 6)).frameAddress ≠ 1#32) := by
  unfold HeaderPasses
  decide +kernel

/-- The first 6 bytes of Frame A; 7 bytes with identifier 0x03 (V-DEC-9). -/
theorem test_witness_DecodeChecksTheIdentifier :
    (HeaderPasses (withRx (frameA.take 6)) ∧ AddressPasses (withRx (frameA.take 6)) ∧
      (withRx (frameA.take 6)).fill .rx < 7) ∧
    (HeaderPasses (withRx (frameA.take 6 ++ [0x03#8])) ∧ AddressPasses (withRx (frameA.take 6 ++ [0x03#8])) ∧
      7 ≤ (withRx (frameA.take 6 ++ [0x03#8])).fill .rx ∧
      (withRx (frameA.take 6 ++ [0x03#8])).cell .rx 6 ∉ [0x01#8, 0x02#8, 0x07#8, 0x08#8]) := by
  unfold HeaderPasses AddressPasses
  decide +kernel

/-- Frame A's first 7 bytes, then a Length field. -/
def lengthBytes (hi lo : Byte) : State := withRx (frameA.take 7 ++ [hi, lo])

theorem test_lengthBytes_reach (hi lo : Byte) :
    HeaderPasses (lengthBytes hi lo) ∧ AddressPasses (lengthBytes hi lo) ∧ IdentifierPasses (lengthBytes hi lo) :=
  ⟨⟨by show 2 ≤ 9; omega, rfl, rfl⟩, ⟨by show 6 ≤ 9; omega, fun h => by cases h⟩,
    ⟨by show 7 ≤ 9; omega, .inl rfl⟩⟩

/-- The first 8 bytes of Frame A; the lengths 2, 36, 3 and 35 with no byte after them. -/
theorem test_witness_DecodeChecksTheLength :
    (HeaderPasses (withRx (frameA.take 8)) ∧ AddressPasses (withRx (frameA.take 8)) ∧
      IdentifierPasses (withRx (frameA.take 8)) ∧ (withRx (frameA.take 8)).fill .rx < 9) ∧
    (9 ≤ (lengthBytes 0#8 2#8).fill .rx ∧ (lengthBytes 0#8 2#8).frameLength < 3) ∧
    (9 ≤ (lengthBytes 0#8 36#8).fill .rx ∧ 35 < (lengthBytes 0#8 36#8).frameLength) ∧
    ((lengthBytes 0#8 3#8).frameLength = 3 ∧ (lengthBytes 0#8 3#8).fill .rx < 9 + 3) ∧
    ((lengthBytes 0#8 35#8).frameLength = 35 ∧ (lengthBytes 0#8 35#8).fill .rx < 9 + 35) := by
  unfold HeaderPasses AddressPasses IdentifierPasses
  decide +kernel

/-- Frame A with its first data byte changed (V-DEC-4). -/
theorem test_witness_DecodeChecksTheChecksum :
    HeaderPasses (flipRx (withRx frameA) 10 0) ∧ AddressPasses (flipRx (withRx frameA) 10 0) ∧
    IdentifierPasses (flipRx (withRx frameA) 10 0) ∧ LengthPasses (flipRx (withRx frameA) 10 0) ∧
    (flipRx (withRx frameA) 10 0).frameCalc ≠ (flipRx (withRx frameA) 10 0).frameRecv := by
  unfold HeaderPasses AddressPasses IdentifierPasses LengthPasses
  decide +kernel

/-- Frame A, and Frame A with a byte after it (V-DEC-15). -/
theorem test_witness_DecodeIgnoresTrailingBytes :
    9 + (withRx frameA).frameLength ≤ (withRx frameA).fill .rx ∧
    9 + (withRx frameA).frameLength ≤ (withRx (frameA ++ [0xAA#8])).fill .rx ∧
    (∀ i, i < 9 + (withRx frameA).frameLength → (withRx frameA).cell .rx i = (withRx (frameA ++ [0xAA#8])).cell .rx i) ∧
    SameConfig (withRx frameA) (withRx (frameA ++ [0xAA#8])) ∧
    SameResults (withRx frameA) (withRx (frameA ++ [0xAA#8])) ∧
    (after (exec .decode (withRx frameA))).map State.err = some .ok ∧
    (after (exec .decode (withRx (frameA ++ [0xAA#8])))).map State.err = some .ok := by
  unfold SameConfig SameResults
  decide +kernel

theorem test_witness_EncodedFrameDecodesToItsInputs : State.reset.plOvf = false ∧ State.reset.fill .pl ≤ 32 ∧
    State.reset.addrCheckEn = false ∧ State.reset.expAddr = State.reset.txAddr ∧
    (withPl (List.replicate 32 0xFF#8)).fill .pl ≤ 32 := by decide +kernel

/-- One flipped bit is what `flipRx` makes, so every accepted frame meets the premises of R109's statements. -/
theorem test_flipRx (s : State) (i : Nat) (k : Fin 8) : RxBitFlipped i k s (flipRx s i k) := by
  refine ⟨rfl, ?_, fun j hj => ?_, rfl, rfl, rfl⟩
  · simp [flipRx, State.cell, State.cells, Memory.read_write_same]
  · simp [flipRx, State.cell, State.cells, Memory.read_write_other _ _ hj]

/-- The frame of V-DEC-14 before its low length byte is flipped. -/
def frameBeforeFlip : List Byte :=
  [0xEF#8, 0x01#8, 0xFF#8, 0xFF#8, 0xFF#8, 0xFF#8, 0x01#8, 0x00#8, 0x07#8, 0x00#8, 0x00#8, 0x00#8, 0x00#8, 0x06#8,
    0x00#8, 0x0E#8]

theorem test_frameBeforeFlip_accepted : FrameAccepted (withRx frameBeforeFlip) := by
  unfold FrameAccepted HeaderPasses AddressPasses IdentifierPasses LengthPasses
  decide +kernel

/-- The low length byte of an accepted frame flipped to 39, 15 and 3 (V-DEC-20), and to 5 so that the re-split frame still
validates (V-DEC-14). -/
theorem test_witness_FlippedHeadBitsAreReported :
    (flipRx (withRx frameA) 8 5).frameLength = 39 ∧
    (flipRx (withRx frameA) 8 3).frameLength = 15 ∧ (flipRx (withRx frameA) 8 3).fill .rx < 9 + 15 ∧
    (flipRx (withRx frameA) 8 2).frameLength = 3 ∧
    9 + (flipRx (withRx frameA) 8 2).frameLength ≤ (flipRx (withRx frameA) 8 2).fill .rx ∧
    (flipRx (withRx frameA) 8 2).frameCalc ≠ (flipRx (withRx frameA) 8 2).frameRecv ∧
    (flipRx (withRx frameBeforeFlip) 8 1).frameLength = 5 ∧
    (flipRx (withRx frameBeforeFlip) 8 1).frameCalc = (flipRx (withRx frameBeforeFlip) 8 1).frameRecv := by
  decide +kernel

/-- The first and the last byte of Frame A that case (d) covers. -/
theorem test_witness_FlippedPayloadOrChecksumBitIsReported :
    FrameAccepted (withRx frameA) ∧ RxBitFlipped 15 7 (withRx frameA) (flipRx (withRx frameA) 15 7) ∧
    15 < 9 + (withRx frameA).frameLength ∧ RxBitFlipped 9 0 (withRx frameA) (flipRx (withRx frameA) 9 0) :=
  ⟨test_witness_DecodeRecordsAnAcceptedFrame false, test_flipRx _ _ _, by decide +kernel, test_flipRx _ _ _⟩

/-! ### Who writes what, and the bus -/

/-- Each register and buffer is changed by a command that may. -/
theorem test_witness_EachRegisterHasItsWriters :
    (after (exec (.csumFeed 1#8) State.reset)).map State.csumAcc = some 1#16 ∧
    (after (exec (.plAppend 1#8) State.reset)).map (State.fill · .pl) = some 1 ∧
    (after (exec (.encode .command 0x35#8) State.reset)).map (fun t => (t.fill .tx, t.txCsum)) = some (12, 0x0039#16) ∧
    (after (exec (.rxAppend 1#8) State.reset)).map (State.fill · .rx) = some 1 ∧
    (after (exec .decode (withRx frameAck))).map State.rxId = some 0x207#10 := by decide +kernel

theorem test_witness_IdleRegistersReadTheirValues : State.reset.busy = false := rfl

theorem test_witness_ReservedOffsetsReadZero : readBack (State.reset.memRead 0x044 4) = some 0#32 ∧
    readBack (State.reset.memRead 0x3FC 4) = some 0#32 ∧ readBack ((busyWith 8#32).memRead 0xC80 4) = some 0#32 ∧
    readBack ((busyWith 8#32).memRead 0xFFC 4) = some 0#32 := by decide

/-- The last cell of each window, below its fill count and at it. -/
theorem test_witness_IdleWindowsReadCellsOrDraws : (withPl (List.replicate 32 0#8)).busy = false ∧ 31 < capacity .pl ∧
    31 < (withPl (List.replicate 32 0#8)).fill .pl ∧ (withPl (List.replicate 31 0#8)).fill .pl ≤ 31 ∧
    255 < capacity .rx ∧ 255 < (rxCount 256).fill .rx ∧ (rxCount 255).fill .rx ≤ 255 ∧
    State.reset.fill .tx ≤ 0 := by decide +kernel

/-- A state for each command pending. -/
theorem test_witness_BusyReadsOfTheWriteSetAreDraws (i : Instr) (h : decode (encode i) = .ok i) :
    (busyWith (encode i)).busy = true ∧ (busyWith (encode i)).pending = some (encode i) ∧
      (busyWith (encode i)).busyCommand = some i := by
  refine ⟨rfl, rfl, ?_⟩
  simp [State.busyCommand, busyWith, h]

theorem test_busy_read_is_a_draw :
    readBack ((busyWith 0x00000008#32).memRead 0x028 4) = some ((Config.draw 10 0).setWidth 32) := rfl

theorem test_witness_OtherBusyReadsAreCurrent : (busyWith 0#32).pending = some (encode .nop) ∧
    (busyWith 0xA#32).pending = some 0xA#32 ∧ legalWord 0xA#32 = false ∧ 0 < capacity .rx ∧
    0 < ({ busyWith 0#32 with rx := (withRx frameA).rx } : State).fill .rx := by decide

/-- RX_ID and CSUM_ACC with an ENCODE pending, and RX_WIN below RX_LEN with a DECODE pending, read as they stand. -/
theorem test_busy_reads_outside_the_write_set :
    decode 0x00003505#32 = .ok (.encode .command 0x35#8) ∧
    readBack (({ busyWith 0x00003505#32 with rxId := 0x207#10 } : State).memRead 0x028 4) = some 0x207#32 ∧
    readBack (({ busyWith 0x00003505#32 with csumAcc := 0x140#16 } : State).memRead 0x014 4) = some 0x140#32 ∧
    decode 0x00000008#32 = .ok .decode ∧
    readBack (({ busyWith 0x00000008#32 with rx := (withRx frameA).rx } : State).memRead 0x824 4) = some 0x35#32 := by
  decide +kernel

/-- A read that answers a value, and one that answers a draw. -/
theorem test_witness_ReadsHaveNoSideEffect : State.reset.memRead 0x040 4 = .ok (0x01000020#32, State.reset) ∧
    State.reset.memRead 0x800 4 = .ok ((Config.draw 8 0).setWidth 32, { State.reset with draws := 1 }) := ⟨rfl, rfl⟩

/-- The first and the last offset whose write is ignored. -/
theorem test_witness_HostWritesActAsTheMapSays : written (State.reset.memWrite 0x014 4 1#32) = some State.reset ∧
    written (State.reset.memWrite 0xFFC 4 1#32) = some State.reset := by decide

/-- Another width, an unaligned offset, and the first aligned offset outside the window. -/
theorem test_witness_UnadmittedAccessesFault : admitted 0x004 2 = false ∧ admitted 0x006 4 = false ∧
    admitted 0x1000 4 = false ∧ admitted 0xFFC 4 = true := by decide

theorem test_witness_CompletedResultsAreVisible :
    (after (exec (.rxAppend 0xEF#8) State.reset)).map (State.fill · .rx) = some 1 ∧ 0 < capacity .rx := by decide

/-! ### The host -/

/-- A host at the statement `st`, at its turn. -/
def hostAt (st : HostStmt) : State :=
  { State.reset with host := { program := [.label (.user 0), st], pc := 1, vars := [] }, schedule := [.host] }

theorem test_witness_HostTurnExecutesItsStatement_premises (st : HostStmt) :
    (hostAt st).schedule = .host :: [] ∧ (hostAt st).host.program[(hostAt st).host.pc]? = some st := ⟨rfl, rfl⟩

/-- RD, WR, LET and both branches, taken: the label is line 0. -/
theorem test_witness_HostTurnExecutesItsStatement :
    (after (step (hostAt (rd (.off .caps) (.user 7))))).map (fun t => (t.host.pc, t.host.vars)) =
      some (2, [(.user 7, 0x01000020)]) ∧
    (after (step (hostAt (wr (.off .txAddr) (.lit 0x12345678))))).map (fun t => (t.host.pc, t.txAddr)) =
      some (2, 0x12345678#32) ∧
    (after (step (hostAt (.set (.user 7) (.add (.lit 2) (.lit 3)))))).map (fun t => (t.host.pc, t.host.vars)) =
      some (2, [(.user 7, 5)]) ∧
    (after (step (hostAt (.bnz (.lit 3) (.lit 1) (.user 0))))).map (fun t => t.host.pc) = some 0 ∧
    (after (step (hostAt (.blt (.lit 3) (.lit 3) (.user 0))))).map (fun t => t.host.pc) = some 2 ∧
    (after (step (hostAt (.bnz (.lit 2) (.lit 1) (.user 9))))).map (fun t => t.host.pc) = some 2 ∧
    (after (step (hostAt (.label (.user 9))))).map (fun t => t.host.pc) = some 2 ∧
    (hostAt (.blt (.lit 0) (.lit 1) (.user 9))).host.program.findIdx? (fun x => x == .label (.user 9)) = none ∧
    (hostAt (.label (.user 1))).host.program.findIdx? (fun x => x == .label (.user 0)) = some 0 := by decide

/-! ### Reset and invariants -/

theorem test_witness_ResetInputAbandonsEverything : ({ busyWith 8#32 with schedule := [.reset] } : State).schedule =
    .reset :: [] ∧ (after (step { busyWith 8#32 with schedule := [.reset] })).map State.pending = some none := by decide

/-- A state with a command pending and a frame decoded meets R38. -/
theorem test_witness_EveryStepKeepsTheInvariants :
    ({ busyWith 4#32 with rxId := 0x207#10, rxFlen := 3#16 } : State).Inv ∧
    (after (step { busyWith 4#32 with rxId := 0x207#10, rxFlen := 3#16 })).isSome = true :=
  ⟨⟨by decide, by decide, by decide, by decide, by decide, by decide, by decide, by decide⟩, by decide⟩

theorem test_witness_EveryStepKeepsTheCellMemories : (withPl [0xAA#8]).CellsInv ∧ (after (step (withPl [0xAA#8]))).isSome = true := by
  refine ⟨⟨fun b => ?_, fun b => ?_, fun b => ?_, fun b i hi => ?_⟩, by decide⟩
  · cases b <;> rfl
  · cases b <;> rfl
  · cases b <;> decide
  · cases b
    · have : i < 1 := hi
      obtain rfl : i = 0 := by omega
      decide
    · exact absurd hi (Nat.not_lt_zero i)
    · exact absurd hi (Nat.not_lt_zero i)

theorem test_witness_EveryStepKeepsTheResultsLegal :
    ({ State.reset with rxId := 0x207#10, rxFlen := 3#16 } : State).ResultsLegal ∧
    (after (step { State.reset with rxId := 0x207#10, rxFlen := 3#16 })).isSome = true :=
  ⟨.inr ⟨⟨.acknowledge, by decide⟩, by decide, by decide, by decide⟩, by decide⟩

theorem test_witness_EveryReachableStateMeetsTheInvariants :
    (after (core.run 2 { State.reset with host := { program := [issueCode .nop], pc := 0, vars := [] }, schedule := [] })).map
      State.statusWord = some 0x002#32 := by decide

end Sys2Proof.Machine.Tests
end

/-! The invariants of R38 are kept by every step, hence hold in every reachable state (spec/10_state.md). -/

namespace Sys2Proof.Machine

/-! ## Runs -/

/-- What every step keeps, every run keeps: the induction over the number of steps, once for all invariants. -/
theorem run_keeps {P : State → Prop} (hstep : ∀ s t, P s → step s = .next t → P t) {n : Nat} {s t : State}
    (hs : P s) (h : core.run n s = .next t) : P t := by
  induction n generalizing s with
  | zero =>
    cases h
    exact hs
  | succ n ih =>
    cases hu : step s with
    | next u => exact ih (hstep s u hs hu) (by simpa [Host.Core.run, Host.Check.core_step, hu] using h)
    | fault r => simp [Host.Core.run, Host.Check.core_step, hu] at h
    | refused r => simp [Host.Core.run, Host.Check.core_step, hu] at h

/-! ## The reset state, and what R38 does not speak of -/

theorem State.inv_reset : State.reset.Inv := by
  constructor <;> decide

namespace State.Inv

variable {s : State}

/-- R38 speaks of the block only: neither the host agent nor the schedule nor the model's counters matter. -/
theorem setOutside (hs : s.Inv) (h : HostAgent) (ts : List Turn) (d r : Nat) :
    ({ s with host := h, schedule := ts, draws := d, resets := r } : State).Inv := { hs with }

theorem setCsumAcc (hs : s.Inv) (v : Half) : ({ s with csumAcc := v } : State).Inv := { hs with }

/-! ## Completion and host writes: (1) and (5) -/

theorem complete (hs : s.Inv) (c : ResultCode) : (s.complete c).Inv :=
  { hs with
    busy_iff_pending := by simp
    busy_not_done := by simp }

theorem hostWrite {u : State} (hs : s.Inv) (hw : HostWrite s u) : u.Inv := by
  cases hw with
  | accepted v _ =>
    exact { hs with
      busy_iff_pending := by simp
      busy_not_done := fun _ => rfl }
  | status v =>
    exact { hs with busy_not_done := fun hb => by simp [hs.busy_not_done hb] }
  | _ => exact { hs with }

/-! ## The bounded buffers: (2), (3) and (4) -/

theorem clearPl (hs : s.Inv) : ({ s with pl := s.pl.clear, plOvf := false } : State).Inv :=
  { hs with
    pl_bounded := by simp [fill]
    pl_overflow_full := by simp }

theorem appendPl (hs : s.Inv) (h : s.fill .pl < 32) (m : Memory) :
    ({ s with pl := ⟨m, BitVec.ofNat 6 (s.fill .pl + 1)⟩ } : State).Inv := by
  have hf : (BitVec.ofNat 6 (s.fill .pl + 1)).toNat = s.fill .pl + 1 := by simp; omega
  exact { hs with
    pl_bounded := hf.trans_le h
    pl_overflow_full := fun ho => absurd (hs.pl_overflow_full ho) (by omega) }

theorem overflowPl (hs : s.Inv) (h : 32 ≤ s.fill .pl) : ({ s with plOvf := true } : State).Inv :=
  { hs with pl_overflow_full := fun _ => hs.pl_bounded.antisymm h }

theorem clearRx (hs : s.Inv) : ({ s with rx := s.rx.clear, rxOvf := false } : State).Inv :=
  { hs with
    rx_bounded := by simp [fill]
    rx_overflow_full := by simp }

theorem appendRx (hs : s.Inv) (h : s.fill .rx < 256) (m : Memory) :
    ({ s with rx := ⟨m, BitVec.ofNat 9 (s.fill .rx + 1)⟩ } : State).Inv := by
  have hf : (BitVec.ofNat 9 (s.fill .rx + 1)).toNat = s.fill .rx + 1 := by simp; omega
  exact { hs with
    rx_bounded := hf.trans_le h
    rx_overflow_full := fun ho => absurd (hs.rx_overflow_full ho) (by omega) }

theorem overflowRx (hs : s.Inv) (h : 256 ≤ s.fill .rx) : ({ s with rxOvf := true } : State).Inv :=
  { hs with rx_overflow_full := fun _ => hs.rx_bounded.antisymm h }

theorem clearTx (hs : s.Inv) : ({ s with tx := s.tx.clear } : State).Inv :=
  { hs with tx_frame_size := .inl rfl }

/-- A committed frame has 12 bytes and the at most 32 data bytes of PL. -/
theorem commitFrame (hs : s.Inv) (frame : List Byte) (c : Half) :
    (s.commitFrame frame (12 + s.fill .pl) c).Inv := by
  have hpl := hs.pl_bounded
  have hf : (s.commitFrame frame (12 + s.fill .pl) c).fill .tx = 12 + s.fill .pl := by
    simp [fill] at hpl ⊢; omega
  exact { hs with tx_frame_size := .inr (by omega) }

end State.Inv

/-! ## An accepted frame: (6) -/

/-- A frame that passes the length and the checksum check has a legal length and the checksum it carries (R100, R102). -/
theorem length_and_checksum_of_frameError_none {check : Bool} {a : Word} {rx : List Byte}
    (h : frameError check a rx = none) :
    3 ≤ (rxLength rx).toNat ∧ (rxLength rx).toNat ≤ 35 ∧ rxCalc rx = rxRecv rx := by
  simp only [frameError, Option.or_eq_none_iff] at h
  obtain ⟨-, -, -, hlen, hsum⟩ := h
  have hbounds : ¬((rxLength rx).toNat < lenMin ∨ lenMax < (rxLength rx).toNat) := by
    intro hbad
    simp only [lengthError, hbad, if_true] at hlen
    split at hlen <;> cases hlen
  have hcalc : rxCalc rx = rxRecv rx := by
    by_contra hne
    simp [checksumError, hne] at hsum
  simp only [lenMin, lenMax] at hbounds
  exact ⟨by omega, by omega, hcalc⟩

theorem State.Inv.recordFrame {s : State} (hs : s.Inv) {check : Bool} {a : Word} {rx : List Byte}
    (h : frameError check a rx = none) : (s.recordFrame rx).Inv := by
  obtain ⟨hmin, hmax, hcalc⟩ := length_and_checksum_of_frameError_none h
  have hdlen : (BitVec.ofNat 6 ((rxLength rx).toNat - 3)).toNat = (rxLength rx).toNat - 3 := by simp; omega
  refine { hs with rx_consistent := fun _ => ⟨?_, ?_⟩ }
  · simp only [recordFrame_rxFlen, recordFrame_rxDlen, hdlen]
    omega
  · rw [recordFrame_rxCsum, csumRecv_append, csumCalc_append, hcalc]

/-! ## Every step -/

theorem exec_keeps_inv {i : Instr} {s t : State} (hs : s.Inv) (h : exec i s = .next t) : t.Inv := by
  cases i with
  | nop =>
    cases h
    exact hs.complete _
  | csumClear =>
    cases h
    exact (hs.setCsumAcc _).complete _
  | csumFeed b =>
    cases h
    exact (hs.setCsumAcc _).complete _
  | plClear =>
    cases h
    exact hs.clearPl.complete _
  | plAppend b =>
    rcases Nat.lt_or_ge (s.fill .pl) 32 with hroom | hfull
    · rw [exec_plAppend_room b hroom] at h
      cases h
      exact (hs.appendPl hroom _).complete _
    · rw [exec_plAppend_full b hfull] at h
      cases h
      exact (hs.overflowPl hfull).complete _
  | encode id b =>
    cases hovf : s.plOvf with
    | false =>
      rw [exec_encode_ok id b hovf] at h
      cases h
      exact (hs.commitFrame _ _).complete _
    | true =>
      rw [exec_encode_overflowed id b hovf] at h
      cases h
      exact hs.complete _
  | rxClear =>
    cases h
    exact hs.clearRx.complete _
  | rxAppend b =>
    rcases Nat.lt_or_ge (s.fill .rx) 256 with hroom | hfull
    · rw [exec_rxAppend_room b hroom] at h
      cases h
      exact (hs.appendRx hroom _).complete _
    · rw [exec_rxAppend_full b hfull] at h
      cases h
      exact (hs.overflowRx hfull).complete _
  | decode =>
    cases herr : frameError s.addrCheckEn s.expAddr (s.contents .rx) with
    | some c =>
      rw [exec_decode_error herr] at h
      cases h
      exact hs.complete _
    | none =>
      rw [exec_decode_ok herr] at h
      cases h
      exact (hs.recordFrame herr).complete _
  | txClear =>
    cases h
    exact hs.clearTx.complete _

theorem engineTurn_keeps_inv {s t : State} (hs : s.Inv) (h : s.engineTurn = .next t) : t.Inv := by
  rcases engineTurn_cases h with ⟨_, rfl⟩ | ⟨_, _, ⟨i, _, hexec⟩ | ⟨_, rfl⟩⟩
  · exact hs
  · exact exec_keeps_inv hs hexec
  · exact hs.complete _

theorem hostTurn_keeps_inv {s t : State} (hs : s.Inv) (h : s.hostTurn = .next t) : t.Inv := by
  obtain ⟨u, d, host, hw, rfl⟩ := hostTurn_cases h
  exact (hs.hostWrite hw).setOutside host _ d _

/-- R38 (1) to (6), one step at a time. -/
theorem step_keeps_inv {s t : State} (hs : s.Inv) (h : step s = .next t) : t.Inv := by
  obtain ⟨ts, hhost | hengine | rfl⟩ := step_cases h
  · exact hostTurn_keeps_inv (hs.setOutside _ ts _ _) hhost
  · exact engineTurn_keeps_inv (hs.setOutside _ ts _ _) hengine
  · exact State.inv_reset.setOutside _ _ _ _

/-- Settles O60: R38 holds at reset and every step keeps it, by induction on the number of steps. -/
theorem everyReachableStateMeetsTheInvariants : Obligations.EveryReachableStateMeetsTheInvariants := by
  intro h ts n t hrun
  exact run_keeps (fun _ _ => step_keeps_inv) (State.inv_reset.setOutside h ts _ _) hrun

end Sys2Proof.Machine

/-! What an admitted host write does at each offset of the map (spec/20_memory.md). -/

namespace Sys2Proof.Machine

theorem memWrite_of_admitted {s t : State} {off n : Nat} {v : Word} (ha : admitted off n = true)
    (hw : s.writeWord off v = t) : s.memWrite off n v = .ok t :=
  hw ▸ if_pos ha

/-! ## The five registers a write changes (R44) -/

theorem writeWord_cmd (s : State) (v : Word) : s.writeWord Reg.cmd.offset v = s.issue v := by
  simp only [State.writeWord, regAt_offset]

theorem writeWord_status (s : State) (v : Word) : s.writeWord Reg.status.offset v = s.writeStatus v := by
  simp only [State.writeWord, regAt_offset]

theorem writeWord_ctrl (s : State) (v : Word) :
    s.writeWord Reg.ctrl.offset v = { s with addrCheckEn := v.getLsbD 0 } := by
  simp only [State.writeWord, regAt_offset]

theorem writeWord_txAddr (s : State) (v : Word) : s.writeWord Reg.txAddr.offset v = { s with txAddr := v } := by
  simp only [State.writeWord, regAt_offset]

theorem writeWord_expAddr (s : State) (v : Word) : s.writeWord Reg.expAddr.offset v = { s with expAddr := v } := by
  simp only [State.writeWord, regAt_offset]

/-- The two write-1-to-clear bits of STATUS, each a clear or no change (R19). -/
theorem writeStatus_eq_ite (s : State) (v : Word) : s.writeStatus v = { s with
    done := if v.getLsbD 1 = true then false else s.done
    cmdOvr := if v.getLsbD 10 = true then false else s.cmdOvr } := by
  have clear (old bit : Bool) : (old && !bit) = if bit = true then false else old := by
    cases bit <;> simp
  simp only [State.writeStatus, clear]

/-! ## The rest of the window -/

/-- EXP_ADDR is the last register that a write changes: beyond it lie read-only registers, windows and reserved offsets
(R17, R44). -/
theorem writeWord_beyond_expAddr {off : Nat} (h : Reg.expAddr.offset < off) (s : State) (v : Word) :
    s.writeWord off v = s := by
  rcases regAt_cases off with ⟨r, hr, rfl⟩ | ⟨hr, -⟩
  · simp only [State.writeWord, hr]
    cases r with
    | cmd | status | ctrl | txAddr | expAddr => simp [Reg.offset] at h
    | _ => rfl
  · simp only [State.writeWord, hr]

/-- Settles O49: each of the five writable registers by its own equation, the rest of the window by
`writeWord_beyond_expAddr`. None of them asks whether a command is pending, only `State.issue` does. -/
theorem hostWritesActAsTheMapSays : Obligations.HostWritesActAsTheMapSays := by
  intro s v
  refine ⟨?cmd, ?status, ?ctrl, ?txAddr, ?expAddr, ?others⟩
  case cmd => exact memWrite_of_admitted (admitted_offset .cmd) (writeWord_cmd s v)
  case status =>
    exact memWrite_of_admitted (admitted_offset .status) ((writeWord_status s v).trans (writeStatus_eq_ite s v))
  case ctrl => exact memWrite_of_admitted (admitted_offset .ctrl) (writeWord_ctrl s v)
  case txAddr => exact memWrite_of_admitted (admitted_offset .txAddr) (writeWord_txAddr s v)
  case expAddr => exact memWrite_of_admitted (admitted_offset .expAddr) (writeWord_expAddr s v)
  case others =>
    intro off haligned hbeyond hwindow
    have hadmitted : admitted off 4 = true := decide_eq_true ⟨rfl, haligned, hwindow⟩
    exact memWrite_of_admitted hadmitted (writeWord_beyond_expAddr hbeyond s v)

end Sys2Proof.Machine

/-! The encodings: IDSEL's identifier table and the wire layout of a frame (spec/30_encoding.md). -/

namespace Sys2Proof

/-! ## Identifiers (R58) -/

@[simp] theorem sel_identifierOfSel (s : BitVec 2) : (identifierOfSel s).sel = s := by
  revert s
  decide

/-- The inverse map answers an identifier on that identifier's byte and on no other. -/
theorem identifierOfByte_eq_some_iff {b : Byte} {id : Identifier} : identifierOfByte b = some id ↔ b = id.byte :=
  ⟨identifierOfByte_some, fun h => h ▸ identifierOfByte_byte id⟩

/-- Settles O6: the four rows by evaluation, the two inverses by their own lemmas. -/
theorem identifierTableAndItsInverse : Obligations.IdentifierTableAndItsInverse :=
  ⟨rfl, rfl, rfl, rfl, sel_identifierOfSel, fun _ _ => identifierOfByte_eq_some_iff⟩

namespace Machine

/-! ## The frame, offset by offset (R62) -/

/-- A slice that starts after one part of a sequence and ends with the next part is that next part. -/
theorem slice_append_middle {pre mid post : List Byte} {i j : Nat} (hi : pre.length = i) (hj : i + mid.length = j) :
    slice (pre ++ mid ++ post) i j = mid := by
  subst hi hj
  simp [slice]

@[simp] theorem be16_length (v : Half) : (be16 v).length = 2 := rfl

@[simp] theorem be32_length (v : Word) : (be32 v).length = 4 := rfl

theorem checksumInput_length (id : Identifier) (instr : Byte) (data : List Byte) :
    (checksumInput id instr data).length = 4 + data.length := by
  simp [checksumInput]
  omega

section Frame

variable (addr : Word) (id : Identifier) (instr : Byte) (data : List Byte)

/-- The checksum covers offsets 6 to 9 + d (R62, R73). -/
theorem slice_frameBytes_checksumInput :
    slice (frameBytes addr id instr data) 6 (10 + data.length) = checksumInput id instr data :=
  slice_append_middle (by simp) (by rw [checksumInput_length]; omega)

/-- The checksum stands in the last two bytes. -/
theorem slice_frameBytes_checksum :
    slice (frameBytes addr id instr data) (10 + data.length) (12 + data.length) =
      be16 (frameChecksum id instr data) := by
  have hpre : (be16 headerValue ++ be32 addr ++ checksumInput id instr data).length = 10 + data.length := by
    simp [checksumInput_length]
    omega
  simpa only [List.append_nil, frameBytes] using
    slice_append_middle (post := []) hpre (j := 12 + data.length) (by rw [be16_length]; omega)

/-- The data bytes stand behind the ten bytes of the fixed fields. -/
theorem slice_frameBytes_data : slice (frameBytes addr id instr data) 10 (10 + data.length) = data := by
  have hpre : (be16 headerValue ++ be32 addr ++ ([id.byte] ++ be16 (lengthField data.length) ++ [instr])).length = 10 :=
    rfl
  simpa only [List.append_assoc, frameBytes, checksumInput] using
    slice_append_middle (post := be16 (frameChecksum id instr data)) hpre (j := 10 + data.length) rfl

end Frame

/-- Settles O27: the fixed fields are read off the frame written byte by byte, the data and the checksum are slices of
the concatenation, and the checksum is that of the slice it covers. -/
theorem frameHasTheWireLayout : Obligations.FrameHasTheWireLayout := by
  intro addr id instr data hd f d
  have hf : f = _ := frameBytes_eq addr id instr hd
  refine ⟨frameBytes_length addr id instr data, ?header, ?address, ?identifier, ?length, ?instruction,
    slice_frameBytes_data addr id instr data, ?checksum⟩
  case header | address | identifier | length | instruction =>
    rw [hf]
    rfl
  case checksum =>
    rw [slice_frameBytes_checksumInput]
    exact slice_frameBytes_checksum addr id instr data

end Machine

end Sys2Proof

/-! Illegal words, and the command cycle: acceptance and the engine's refusal (spec/30_encoding.md, spec/40_command.md). -/

namespace Sys2Proof

/-! ## Legal words, field by field (R60) -/

/-- R60 case (c) does not hold: no operand field is set that the OP does not take. -/
def OperandsFit (w : Word) : Prop :=
  (idselOf w = 0#2 ∨ opOf w = 5#4) ∧ (byteOf w = 0#8 ∨ opOf w ∉ [0#4, 1#4, 3#4, 6#4, 8#4, 9#4])

theorem legalWord_iff {w : Word} :
    legalWord w = true ↔ (opOf w).toNat < 10 ∧ (rsv0Of w = 0#2 ∧ rsv1Of w = 0#16) ∧ OperandsFit w := by
  simp only [legalWord, reservedOp, reservedBitsSet, unusedIdsel, unusedByte, OperandsFit, opOf, idselOf, rsv0Of,
    byteOf, rsv1Of, Bool.not_eq_true', Bool.or_eq_false_iff, Bool.and_eq_false_iff, decide_eq_false_iff_not,
    bne_eq_false_iff_eq, List.contains_eq_mem, not_le, and_assoc]

/-- The only legal word with OP = 0 is the word 0: no other field may be set. -/
theorem eq_zero_of_legalWord {w : Word} (hop : opOf w = 0#4) (h : legalWord w = true) : w = 0#32 := by
  obtain ⟨-, ⟨hrsv0, hrsv1⟩, hidsel, hbyte⟩ := legalWord_iff.mp h
  have hidsel : idselOf w = 0#2 := by simpa [hop] using hidsel
  have hbyte : byteOf w = 0#8 := by simpa [hop] using hbyte
  exact word_ext hop hidsel hrsv0 hbyte hrsv1

/-! ## The decoder answers a command on legal words only (R59, R60) -/

theorem operandsFit_of_decodePlain {w : Word} {i j : Instr} (h : decodePlain w i = .ok j) : OperandsFit w := by
  unfold decodePlain at h
  split at h
  next hfields => exact ⟨.inl hfields.1, .inl hfields.2⟩
  next => cases h

theorem operandsFit_of_decodeByte {w : Word} {i : Byte → Instr} {j : Instr}
    (hop : opOf w ∉ [0#4, 1#4, 3#4, 6#4, 8#4, 9#4]) (h : decodeByte w i = .ok j) : OperandsFit w := by
  unfold decodeByte at h
  split at h
  next hidsel => exact ⟨.inl hidsel, .inr hop⟩
  next => cases h

/-- Row by row of R59: each row's form of operands leaves no other field set. -/
theorem legalWord_of_decode_ok {w : Word} {i : Instr} (h : decode w = .ok i) : legalWord w = true := by
  unfold decode at h
  split at h
  · cases h
  rename_i hres
  split at h
  · cases h
  rename_i hrsv
  refine legalWord_iff.mpr ⟨Nat.lt_of_not_le hres, by simpa using hrsv, ?_⟩
  repeat' split at h
  next => exact operandsFit_of_decodePlain h
  next => exact operandsFit_of_decodePlain h
  next hop => exact operandsFit_of_decodeByte (by simp [hop]) h
  next => exact operandsFit_of_decodePlain h
  next hop => exact operandsFit_of_decodeByte (by simp [hop]) h
  next hop => exact ⟨.inr hop, .inr (by simp [hop])⟩
  next => exact operandsFit_of_decodePlain h
  next hop => exact operandsFit_of_decodeByte (by simp [hop]) h
  next => exact operandsFit_of_decodePlain h
  next => exact operandsFit_of_decodePlain h

theorem decode_error_of_illegal {w : Word} (h : legalWord w = false) : ∃ e, decode w = .error e := by
  cases hd : decode w with
  | ok i => simp [legalWord_of_decode_ok hd] at h
  | error e => exact ⟨e, rfl⟩

namespace Machine

/-! ## Acceptance and refusal (R64, R113) -/

theorem issue_of_idle {s : State} (w : Word) (h : s.pending = none) :
    s.issue w = { s with pending := some w, busy := true, done := false } := by
  simp [State.issue, h]

theorem issue_of_pending {s : State} {v : Word} (w : Word) (h : s.pending = some v) :
    s.issue w = { s with cmdOvr := true } := by
  simp [State.issue, h]

theorem memWrite_cmd (s : State) (w : Word) : s.memWrite Reg.cmd.offset 4 w = .ok (s.issue w) :=
  memWrite_of_admitted (admitted_offset .cmd) (writeWord_cmd s w)

theorem engineTurn_of_illegal {s : State} {w : Word} (hp : s.pending = some w) (hw : legalWord w = false) :
    s.engineTurn = .next (s.complete .illegalCommand) := by
  obtain ⟨e, he⟩ := decode_error_of_illegal hw
  simp [State.engineTurn, hp, he, State.illegal]

theorem engineRefusesWord_of_illegal {s : State} {w : Word} (hp : s.pending = some w) (hw : legalWord w = false) :
    EngineRefusesWord s :=
  ⟨_, engineTurn_of_illegal hp hw, s.complete_completed _, s.complete_only _⟩

/-- Settles O9: a write to CMD is `State.issue`, whose two branches are the first two clauses; an illegal word that was
accepted is the pending word at the engine's turn. -/
theorem commandWriteIsAcceptedOrDiscarded : Obligations.CommandWriteIsAcceptedOrDiscarded := by
  intro s w
  have hwrite : s.memWrite 0x000 4 w = .ok (s.issue w) := memWrite_cmd s w
  rw [hwrite]
  refine ⟨fun hidle => congrArg _ (issue_of_idle w hidle), fun v hv => congrArg _ (issue_of_pending w hv), ?_⟩
  intro u hidle hillegal hu
  have hpending : (s.issue w).pending = some w := by rw [issue_of_idle w hidle]
  cases hu
  exact engineRefusesWord_of_illegal hpending hillegal

/-- Settles O15: the word 0 is the only legal word with OP = 0, and NOP is `complete(OK)`. -/
theorem nopOnlyCompletes : Obligations.NopOnlyCompletes := by
  refine ⟨rfl, ?otherWords, fun s => ⟨s.complete .ok, rfl, s.complete_completed _, s.complete_only _⟩⟩
  intro w hop hne
  have hillegal : legalWord w = false := Bool.eq_false_iff.mpr fun hlegal => hne (eq_zero_of_legalWord hop hlegal)
  exact ⟨hillegal, fun s hp => engineRefusesWord_of_illegal hp hillegal⟩

end Machine

end Sys2Proof

/-! The checksum engine: what csum16 computes, and what commands do to the accumulator (spec/41_checksum.md). -/

namespace Sys2Proof

/-- The word of a command with a byte operand: OP below, the byte in bits 15:8 (R56, R59). -/
theorem assembleWord_byte (op : BitVec 4) (b : Byte) :
    assembleWord op 0#2 b = op.setWidth 32 ||| b.setWidth 32 <<< 8 := by
  refine BitVec.eq_of_getLsbD_eq fun i hi => ?_
  simp only [getLsbD_assembleWord, BitVec.getLsbD_or, BitVec.getLsbD_shiftLeft, BitVec.getLsbD_setWidth]
  by_cases hop : i < 4
  · simp [hop, hi, show i < 8 by omega]
  have hhigh : op.getLsbD i = false := BitVec.getLsbD_of_ge op i (by omega)
  by_cases hlow : i < 8
  · simp [hop, hhigh, hlow]
  · simp [hop, hhigh, hlow, hi, show ¬ i < 6 by omega, show i - 8 < 32 by omega]

namespace Machine

/-! ## csum16 (R72, R74) -/

theorem csum16_cons (b : Byte) (bs : List Byte) : csum16 (b :: bs) = b.setWidth 16 + csum16 bs := by
  apply BitVec.eq_of_toNat_eq
  rw [csum16_toNat, byteSum_cons, BitVec.toNat_add, csum16_toNat, BitVec.toNat_setWidth]
  omega

theorem byteSum_perm {bs cs : List Byte} (h : bs.Perm cs) : byteSum bs = byteSum cs :=
  (h.map _).sum_eq

theorem byteSum_replicate (n : Nat) (b : Byte) : byteSum (List.replicate n b) = n * b.toNat := by
  simp [byteSum]

theorem csum16_append_toNat (bs cs : List Byte) :
    (csum16 (bs ++ cs)).toNat = ((csum16 bs).toNat + (csum16 cs).toNat) % 65536 := by
  rw [csum16_toNat, csum16_toNat, csum16_toNat, byteSum_append, Nat.add_mod]

/-- A flipped bit moves the plain sum by its weight, at most 128, which is no multiple of 65536. -/
theorem csum16_flip_ne (bs cs : List Byte) (b : Byte) (k : Fin 8) :
    csum16 (bs ++ (b ^^^ BitVec.twoPow 8 k.val) :: cs) ≠ csum16 (bs ++ b :: cs) := by
  intro heq
  have hpos : 0 < 2 ^ k.val := Nat.two_pow_pos k
  have hweight : 2 ^ k.val < 2 ^ 8 := Nat.pow_lt_pow_right (by decide) k.isLt
  have hsum := congrArg BitVec.toNat heq
  simp only [csum16_toNat, byteSum_append, byteSum_cons] at hsum
  rcases flip_toNat b k with hflip | hflip <;> omega

theorem csum16_of_byteSum_eq_65536 {bs : List Byte} (h : byteSum bs = 65536) : csum16 bs = 0#16 := by
  rw [csum16, h]
  rfl

/-- Below 65536 nothing is cut off. -/
theorem csum16_toNat_of_lt {bs : List Byte} (h : byteSum bs < 65536) : (csum16 bs).toNat = byteSum bs := by
  rw [csum16_toNat, Nat.mod_eq_of_lt h]

/-- Settles O19: (a) to (c) by the lemmas above; (d) and (e) by the bound of 255 on each byte. -/
theorem checksumHasTheListedProperties : Obligations.ChecksumHasTheListedProperties := by
  refine ⟨fun bs cs h => congrArg (BitVec.ofNat 16) (byteSum_perm h), csum16_append_toNat, csum16_flip_ne,
    ?wrap, ?shortest, ?frame⟩
  case wrap =>
    intro bs hsum
    have hle := byteSum_le bs
    exact ⟨csum16_of_byteSum_eq_65536 hsum, by omega⟩
  case shortest =>
    rw [byteSum_append, byteSum_replicate]
    rfl
  case frame =>
    intro id instr data hdata
    have hlen := checksumInput_length id instr data
    have hle := byteSum_le (checksumInput id instr data)
    exact ⟨by omega, by omega, csum16_toNat_of_lt (by omega)⟩

/-! ## CSUM_CLEAR and CSUM_FEED (R75, R76) -/

/-- Nothing of the state but the accumulator, STATUS.ERR, BUSY and DONE and PENDING has changed. -/
def OnlyCsumAccChanged (s t : State) : Prop :=
  (∀ b, SameBuffer b s t) ∧ SameFlags s t ∧ SameConfig s t ∧ t.txCsum = s.txCsum ∧ SameResults s t ∧ SameOutside s t

theorem setCsumAcc_complete_only (s : State) (v : Half) (c : ResultCode) :
    OnlyCsumAccChanged s (State.complete c { s with csumAcc := v }) := by
  obtain ⟨hbuffers, hflags, hconfig, -, htxCsum, hresults, houtside⟩ := State.complete_only { s with csumAcc := v } c
  exact ⟨hbuffers, hflags, hconfig, htxCsum, hresults, houtside⟩

theorem exec_csumClear (s : State) : exec .csumClear s = .next (State.complete .ok { s with csumAcc := 0#16 }) := rfl

theorem exec_csumFeed (b : Byte) (s : State) :
    exec (.csumFeed b) s = .next (State.complete .ok { s with csumAcc := s.csumAcc + b.setWidth 16 }) := rfl

theorem csumAcc_add_byte_toNat (acc : Half) (b : Byte) :
    (acc + b.setWidth 16).toNat = (acc.toNat + b.toNat) % 65536 := by
  rw [BitVec.toNat_add, BitVec.toNat_setWidth_of_le (by decide)]

/-- Settles O16: CSUM_CLEAR stores 0 in the accumulator and completes. -/
theorem csumClearZeroesTheAccumulator : Obligations.CsumClearZeroesTheAccumulator :=
  ⟨rfl, fun s => ⟨_, exec_csumClear s, State.complete_completed _ _, rfl, setCsumAcc_complete_only s _ _⟩⟩

/-- Settles O17: CSUM_FEED stores the sum in the accumulator and completes. -/
theorem csumFeedAddsTheByteModulo65536 : Obligations.CsumFeedAddsTheByteModulo65536 := fun b s =>
  ⟨assembleWord_byte 0x2#4 b, _, exec_csumFeed b s, State.complete_completed _ _, csumAcc_add_byte_toNat s.csumAcc b,
    setCsumAcc_complete_only s _ _⟩

/-! ## Streaming (R77) -/

/-- Only CSUM_CLEAR and CSUM_FEED write the accumulator (R23). -/
theorem exec_keeps_csumAcc {i : Instr} {s t : State} (hclear : i ≠ .csumClear) (hfeed : ∀ b, i ≠ .csumFeed b)
    (h : exec i s = .next t) : t.csumAcc = s.csumAcc := by
  have hkeeps : ∀ {u : State}, exec i s = .next u → u.csumAcc = s.csumAcc → t.csumAcc = s.csumAcc :=
    fun hu hacc => (Host.Outcome.next.inj (h.symm.trans hu)) ▸ hacc
  cases i with
  | csumClear => exact absurd rfl hclear
  | csumFeed b => exact absurd rfl (hfeed b)
  | nop | plClear | rxClear | txClear => exact hkeeps rfl rfl
  | plAppend b =>
    rcases Nat.lt_or_ge (s.fill .pl) 32 with hroom | hfull
    · exact hkeeps (exec_plAppend_room b hroom) rfl
    · exact hkeeps (exec_plAppend_full b hfull) rfl
  | encode id b =>
    cases hovf : s.plOvf with
    | false => exact hkeeps (exec_encode_ok id b hovf) rfl
    | true => exact hkeeps (exec_encode_overflowed id b hovf) rfl
  | rxAppend b =>
    rcases Nat.lt_or_ge (s.fill .rx) 256 with hroom | hfull
    · exact hkeeps (exec_rxAppend_room b hroom) rfl
    · exact hkeeps (exec_rxAppend_full b hfull) rfl
  | decode =>
    cases herr : frameError s.addrCheckEn s.expAddr (s.contents .rx) with
    | some c => exact hkeeps (exec_decode_error herr) rfl
    | none => exact hkeeps (exec_decode_ok herr) rfl

theorem fedBytes_cons_of_ne_feed {i : Instr} (h : ∀ b, i ≠ .csumFeed b) (is : List Instr) :
    fedBytes (i :: is) = fedBytes is := by
  cases i with
  | csumFeed b => exact absurd rfl (h b)
  | _ => rfl

/-- ACC plus the checksum of the bytes still to be fed is the same before and after a command other than CSUM_CLEAR. -/
theorem exec_csumAcc_add_fed {i : Instr} {s t : State} (hclear : i ≠ .csumClear) (h : exec i s = .next t)
    (is : List Instr) : t.csumAcc + csum16 (fedBytes is) = s.csumAcc + csum16 (fedBytes (i :: is)) := by
  by_cases hfeed : ∃ b, i = .csumFeed b
  · obtain ⟨b, rfl⟩ := hfeed
    cases h
    exact (BitVec.add_assoc _ _ _).trans (congrArg _ (csum16_cons b (fedBytes is)).symm)
  · have hother : ∀ b, i ≠ .csumFeed b := not_exists.mp hfeed
    rw [exec_keeps_csumAcc hclear hother h, fedBytes_cons_of_ne_feed hother]

/-- R77 from any accumulator value: the general statement that the induction over the commands needs. -/
theorem execAll_csumAcc {cmds : List Instr} (hclear : .csumClear ∉ cmds) (s : State) :
    ∃ t, execAll cmds s = .next t ∧ t.csumAcc = s.csumAcc + csum16 (fedBytes cmds) := by
  induction cmds generalizing s with
  | nil => exact ⟨s, rfl, (BitVec.add_zero _).symm⟩
  | cons i is ih =>
    obtain ⟨hi, his⟩ := List.ne_and_not_mem_of_not_mem_cons hclear
    obtain ⟨u, c, hu⟩ := exec_complete i s
    obtain ⟨t, ht, hacc⟩ := ih his (u.complete c)
    refine ⟨t, ?_, hacc.trans (exec_csumAcc_add_fed hi.symm hu is)⟩
    simp only [execAll, hu, ht]

/-- Settles O18: the general statement at ACC = 0. -/
theorem streamedBytesLeaveTheirChecksum : Obligations.StreamedBytesLeaveTheirChecksum := by
  intro cmds s hzero hclear
  obtain ⟨t, ht, hacc⟩ := execAll_csumAcc hclear s
  exact ⟨t, ht, by rw [hacc, hzero, BitVec.zero_add]⟩

end Machine

end Sys2Proof

/-! The bounded buffers: what their commands store, clear and leave unchanged (spec/42_buffers.md). -/

namespace Sys2Proof.Machine

/-! ## What a command can do -/

/-- The ways a command can end: one constructor for each equation of `exec`, with the condition under which it holds. -/
inductive CommandEffect (s : State) : Instr → State → Prop where
  | nop : CommandEffect s .nop (s.complete .ok)
  | csumClear : CommandEffect s .csumClear (State.complete .ok { s with csumAcc := 0#16 })
  | csumFeed (b : Byte) :
      CommandEffect s (.csumFeed b) (State.complete .ok { s with csumAcc := s.csumAcc + b.setWidth 16 })
  | plClear : CommandEffect s .plClear (State.complete .ok { s with pl := s.pl.clear, plOvf := false })
  | plAppendRoom (b : Byte) (h : s.fill .pl < 32) :
      CommandEffect s (.plAppend b) (State.complete .ok
        { s with pl := ⟨Memory.write s.pl.cells (s.fill .pl) b, BitVec.ofNat 6 (s.fill .pl + 1)⟩ })
  | plAppendFull (b : Byte) (h : 32 ≤ s.fill .pl) :
      CommandEffect s (.plAppend b) (State.complete .capacityExceeded { s with plOvf := true })
  | encodeOk (id : Identifier) (b : Byte) (h : s.plOvf = false) :
      CommandEffect s (.encode id b) (State.complete .ok
        (s.commitFrame (frameBytes s.txAddr id b (s.contents .pl)) (12 + s.fill .pl)
          (frameChecksum id b (s.contents .pl))))
  | encodeOverflowed (id : Identifier) (b : Byte) (h : s.plOvf = true) :
      CommandEffect s (.encode id b) (s.complete .capacityExceeded)
  | rxClear : CommandEffect s .rxClear (State.complete .ok { s with rx := s.rx.clear, rxOvf := false })
  | rxAppendRoom (b : Byte) (h : s.fill .rx < 256) :
      CommandEffect s (.rxAppend b) (State.complete .ok
        { s with rx := ⟨Memory.write s.rx.cells (s.fill .rx) b, BitVec.ofNat 9 (s.fill .rx + 1)⟩ })
  | rxAppendFull (b : Byte) (h : 256 ≤ s.fill .rx) :
      CommandEffect s (.rxAppend b) (State.complete .capacityExceeded { s with rxOvf := true })
  | decodeError (c : ResultCode) (h : frameError s.addrCheckEn s.expAddr (s.contents .rx) = some c) :
      CommandEffect s .decode (s.complete c)
  | decodeOk (h : frameError s.addrCheckEn s.expAddr (s.contents .rx) = none) :
      CommandEffect s .decode (State.complete .ok (s.recordFrame (s.contents .rx)))
  | txClear : CommandEffect s .txClear (State.complete .ok { s with tx := s.tx.clear })

theorem exec_plClear (s : State) :
    exec .plClear s = .next (State.complete .ok { s with pl := s.pl.clear, plOvf := false }) := rfl

theorem exec_rxClear (s : State) :
    exec .rxClear s = .next (State.complete .ok { s with rx := s.rx.clear, rxOvf := false }) := rfl

theorem exec_txClear (s : State) : exec .txClear s = .next (State.complete .ok { s with tx := s.tx.clear }) := rfl

/-- Every command has an effect of the list. -/
theorem exec_commandEffect (i : Instr) (s : State) : ∃ t, exec i s = .next t ∧ CommandEffect s i t := by
  cases i with
  | nop => exact ⟨_, rfl, .nop⟩
  | csumClear => exact ⟨_, exec_csumClear s, .csumClear⟩
  | csumFeed b => exact ⟨_, exec_csumFeed b s, .csumFeed b⟩
  | plClear => exact ⟨_, exec_plClear s, .plClear⟩
  | plAppend b =>
    rcases Nat.lt_or_ge (s.fill .pl) 32 with hroom | hfull
    · exact ⟨_, exec_plAppend_room b hroom, .plAppendRoom b hroom⟩
    · exact ⟨_, exec_plAppend_full b hfull, .plAppendFull b hfull⟩
  | encode id b =>
    cases hovf : s.plOvf with
    | false => exact ⟨_, exec_encode_ok id b hovf, .encodeOk id b hovf⟩
    | true => exact ⟨_, exec_encode_overflowed id b hovf, .encodeOverflowed id b hovf⟩
  | rxClear => exact ⟨_, exec_rxClear s, .rxClear⟩
  | rxAppend b =>
    rcases Nat.lt_or_ge (s.fill .rx) 256 with hroom | hfull
    · exact ⟨_, exec_rxAppend_room b hroom, .rxAppendRoom b hroom⟩
    · exact ⟨_, exec_rxAppend_full b hfull, .rxAppendFull b hfull⟩
  | decode =>
    cases herr : frameError s.addrCheckEn s.expAddr (s.contents .rx) with
    | some c => exact ⟨_, exec_decode_error herr, .decodeError c herr⟩
    | none => exact ⟨_, exec_decode_ok herr, .decodeOk herr⟩
  | txClear => exact ⟨_, exec_txClear s, .txClear⟩

/-- The inversion of `exec`: the state a command ends in is one of the list. -/
theorem commandEffect_of_exec {i : Instr} {s t : State} (h : exec i s = .next t) : CommandEffect s i t := by
  obtain ⟨u, hu, heffect⟩ := exec_commandEffect i s
  cases h.symm.trans hu
  exact heffect

/-- PL_OVF, once set, survives every command but PL_CLEAR (R82). -/
theorem exec_keeps_plOvf_set {i : Instr} {s t : State} (hclear : i ≠ .plClear) (h : exec i s = .next t)
    (hset : s.plOvf = true) : t.plOvf = true := by
  cases commandEffect_of_exec h with
  | plClear => exact absurd rfl hclear
  | plAppendFull => rfl
  | _ => exact hset

/-! ## One cell written -/

section Write

variable {s t : State} {b : Buf} {k : Nat} {x : Byte}

theorem State.cell_write_same (hc : t.cells b = Memory.write (s.cells b) k x) : t.cell b k = x := by
  simp only [State.cell, hc, Memory.read_write_same]

theorem State.cell_write_other (hc : t.cells b = Memory.write (s.cells b) k x) (hr : t.resets = s.resets) {i : Nat}
    (hi : i ≠ k) : t.cell b i = s.cell b i := by
  simp only [State.cell, hc, hr, Memory.read_write_other _ _ hi]

end Write

/-! ## What the commands of the buffers leave unchanged -/

/-- Of the state, only the buffers, their overflow flags, STATUS.ERR, BUSY and DONE and PENDING may have changed. -/
def OnlyBuffersChanged (s t : State) : Prop :=
  SameConfig s t ∧ t.csumAcc = s.csumAcc ∧ t.txCsum = s.txCsum ∧ SameResults s t ∧ SameOutside s t

theorem setBuffers_complete_only (s : State) (pl : Buffer 6) (tx rx : Buffer 9) (plOvf rxOvf : Bool) (c : ResultCode) :
    OnlyBuffersChanged s
      (State.complete c { s with pl := pl, tx := tx, rx := rx, plOvf := plOvf, rxOvf := rxOvf }) := by
  obtain ⟨-, -, hrest⟩ := State.complete_only
    { s with pl := pl, tx := tx, rx := rx, plOvf := plOvf, rxOvf := rxOvf } c
  exact hrest

/-! ## PL_CLEAR, RX_CLEAR and TX_CLEAR (R82, R84, R86) -/

/-- Settles O20: PL_CLEAR empties PL on every state, and every other command keeps a set PL_OVF. -/
theorem plClearEmptiesThePayload : Obligations.PlClearEmptiesThePayload := by
  refine ⟨rfl, ?onlyPlClear, fun s => ⟨_, exec_plClear s, State.complete_completed _ _, rfl, rfl, fun _ => rfl,
    ⟨rfl, fun _ => rfl⟩, ⟨rfl, fun _ => rfl⟩, rfl, rfl, setBuffers_complete_only s _ _ _ _ _ _⟩⟩
  case onlyPlClear =>
    intro i s t hexec hset hcleared
    by_contra hne
    simp [exec_keeps_plOvf_set hne hexec hset] at hcleared

/-- Settles O22: RX_CLEAR sets RX_LEN and RX_OVF to 0 and completes. -/
theorem rxClearEmptiesTheReceiveBuffer : Obligations.RxClearEmptiesTheReceiveBuffer :=
  ⟨rfl, fun s => ⟨_, exec_rxClear s, State.complete_completed _ _, rfl, rfl, fun _ => rfl, ⟨rfl, fun _ => rfl⟩,
    ⟨rfl, fun _ => rfl⟩, rfl, rfl, setBuffers_complete_only s _ _ _ _ _ _⟩⟩

/-- Settles O24: TX_CLEAR sets TX_LEN to 0 and completes. -/
theorem txClearDiscardsTheFrame : Obligations.TxClearDiscardsTheFrame :=
  ⟨rfl, fun s => ⟨_, exec_txClear s, State.complete_completed _ _, rfl, fun _ => rfl, ⟨rfl, fun _ => rfl⟩,
    ⟨rfl, fun _ => rfl⟩, ⟨rfl, rfl, rfl⟩, setBuffers_complete_only s _ _ _ _ _ _⟩⟩

/-! ## PL_APPEND and RX_APPEND (R83, R85) -/

/-- Settles O21: with room, the write of one cell and a fill count that still fits its register; at 32, PL_OVF alone. -/
theorem plAppendStoresOrOverflows : Obligations.PlAppendStoresOrOverflows := by
  intro b s
  refine ⟨assembleWord_byte 0x4#4 b, fun hroom => ?room, fun hfull => ?full⟩
  case room =>
    have hcount : s.fill .pl + 1 < 2 ^ 6 := by omega
    exact ⟨_, exec_plAppend_room b hroom, State.complete_completed _ _, Nat.mod_eq_of_lt hcount,
      State.cell_write_same rfl, fun _ => State.cell_write_other rfl (by rfl), ⟨rfl, fun _ => rfl⟩,
      ⟨rfl, fun _ => rfl⟩, ⟨rfl, rfl, rfl⟩, setBuffers_complete_only s _ _ _ _ _ _⟩
  case full =>
    exact ⟨_, exec_plAppend_full b hfull.ge, State.complete_completed _ _, rfl,
      fun c => ⟨State.complete_fill _ _ c, State.complete_cell _ _ c⟩, rfl, rfl,
      setBuffers_complete_only s _ _ _ _ _ _⟩

/-- Settles O23: with room, the write of one cell and a fill count that still fits its register; at 256, RX_OVF
alone. -/
theorem rxAppendStoresOrOverflows : Obligations.RxAppendStoresOrOverflows := by
  intro b s
  refine ⟨assembleWord_byte 0x7#4 b, fun hroom => ?room, fun hfull => ?full⟩
  case room =>
    have hcount : s.fill .rx + 1 < 2 ^ 9 := by omega
    exact ⟨_, exec_rxAppend_room b hroom, State.complete_completed _ _, Nat.mod_eq_of_lt hcount,
      State.cell_write_same rfl, fun _ => State.cell_write_other rfl (by rfl), ⟨rfl, fun _ => rfl⟩,
      ⟨rfl, fun _ => rfl⟩, ⟨rfl, rfl, rfl⟩, setBuffers_complete_only s _ _ _ _ _ _⟩
  case full =>
    exact ⟨_, exec_rxAppend_full b hfull.ge, State.complete_completed _ _, rfl,
      fun c => ⟨State.complete_fill _ _ c, State.complete_cell _ _ c⟩, rfl, rfl,
      setBuffers_complete_only s _ _ _ _ _ _⟩

end Sys2Proof.Machine

/-! The packet frame encoder: the word of ENCODE, the frame it commits, what it leaves unchanged (spec/43_encoder.md). -/

namespace Sys2Proof

/-- An assembled word as the disjunction of its fields, each shifted to its place (R56, R59). -/
theorem assembleWord_eq_or (op : BitVec 4) (s : BitVec 2) (b : Byte) :
    assembleWord op s b = op.setWidth 32 ||| s.setWidth 32 <<< 4 ||| b.setWidth 32 <<< 8 := by
  refine BitVec.eq_of_getLsbD_eq fun i hi => ?_
  simp only [getLsbD_assembleWord, BitVec.getLsbD_or, BitVec.getLsbD_shiftLeft, BitVec.getLsbD_setWidth]
  by_cases hop : i < 4
  · simp [hop, hi, show i < 8 by omega]
  have hopHigh : op.getLsbD i = false := BitVec.getLsbD_of_ge op i (by omega)
  by_cases hsel : i < 6
  · simp [hop, hopHigh, hsel, hi, show i < 8 by omega, show i - 4 < 32 by omega]
  have hselHigh : s.getLsbD (i - 4) = false := BitVec.getLsbD_of_ge s (i - 4) (by omega)
  by_cases hlow : i < 8
  · simp [hop, hopHigh, hsel, hselHigh, hlow]
  · simp [hop, hopHigh, hsel, hselHigh, hlow, hi, show i - 8 < 32 by omega]

namespace Machine

/-! ## The frame's fields (R88, R90, R91) -/

theorem lengthField_eq (d : Nat) : lengthField d = BitVec.ofNat 16 (3 + d) :=
  congrArg (BitVec.ofNat 16) (by omega)

/-- The checksum covers identifier, length, instruction byte and PL (R90). -/
theorem checksumInput_contents (id : Identifier) (instr : Byte) (s : State) :
    checksumInput id instr (s.contents .pl) =
      [id.byte] ++ be16 (BitVec.ofNat 16 (3 + s.fill .pl)) ++ [instr] ++ s.contents .pl := by
  rw [checksumInput, lengthField_eq, State.contents_length]

/-! ## The commit (R93) -/

/-- Nothing of the state but TX, TX_LEN, TX_CSUM, STATUS.ERR, BUSY and DONE and PENDING has changed. -/
def OnlyFrameChanged (s t : State) : Prop :=
  SameBuffer .pl s t ∧ SameBuffer .rx s t ∧ SameFlags s t ∧ SameConfig s t ∧ t.csumAcc = s.csumAcc ∧
    SameResults s t ∧ SameOutside s t

section Commit

variable (s : State) (frame : List Byte) (total : Nat) (csum : Half)

theorem State.commitFrame_fill_tx (h : total < 512) : (s.commitFrame frame total csum).fill .tx = total :=
  Nat.mod_eq_of_lt h

theorem State.commitFrame_cell_below {k : Nat} (h : k < frame.length) :
    some ((s.commitFrame frame total csum).cell .tx k) = frame[k]? := by
  simp [State.commitFrame_cell, h]

theorem State.commitFrame_cell_beyond {k : Nat} (h : frame.length ≤ k) :
    (s.commitFrame frame total csum).cell .tx k = s.cell .tx k := by
  simp [State.commitFrame_cell, h]

theorem commitFrame_complete_only (c : ResultCode) :
    OnlyFrameChanged s ((s.commitFrame frame total csum).complete c) := by
  obtain ⟨hbuffers, hflags, hconfig, hcsumAcc, -, hresults, houtside⟩ :=
    State.complete_only (s.commitFrame frame total csum) c
  exact ⟨hbuffers .pl, hbuffers .rx, hflags, hconfig, hcsumAcc, hresults, houtside⟩

end Commit

/-! ## ENCODE (R94) -/

/-- Settles O26: without a payload overflow ENCODE commits the frame of R91, whose 12 + d bytes are the TX cells written
and fit TX_LEN on every state; after one it only completes. -/
theorem encodeBuildsTheFrameOrFails : Obligations.EncodeBuildsTheFrameOrFails := by
  intro id instr s d len csum frame
  refine ⟨assembleWord_eq_or 0x5#4 id.sel instr, fun hovf => ?builds, fun hovf => ?fails⟩
  case builds =>
    have hcsum : frameChecksum id instr (s.contents .pl) = csum :=
      congrArg csum16 (checksumInput_contents id instr s)
    have hframe : frameBytes s.txAddr id instr (s.contents .pl) = frame := by
      simp only [frameBytes, hcsum, checksumInput_contents, ← List.append_assoc]
      rfl
    have hlength : frame.length = 12 + d := by
      rw [← hframe, frameBytes_length, State.contents_length]
    have htotal : 12 + d < 512 := by
      have := s.fill_pl_lt
      omega
    have hexec := exec_encode_ok id instr hovf
    rw [hframe, hcsum] at hexec
    exact ⟨_, hexec, State.complete_completed _ _, s.commitFrame_fill_tx frame _ csum htotal,
      fun k hk => s.commitFrame_cell_below frame (12 + d) csum (hlength ▸ hk),
      fun k hk => s.commitFrame_cell_beyond frame (12 + d) csum (hlength ▸ hk), rfl,
      commitFrame_complete_only s _ _ _ _⟩
  case fails =>
    exact ⟨_, exec_encode_overflowed id instr hovf, State.complete_completed _ _, State.complete_only _ _⟩

end Machine

end Sys2Proof

/-! The packet frame decoder: the checks of DECODE in their order, what it records of an accepted frame, and the round
trip of a frame through TX and RX (spec/44_decoder.md). -/

namespace Sys2Proof.Machine

/-! ## The checks, read off the cells of RX (R97, R100, R102) -/

section Checks

variable {s : State}

theorem headerError_contents (s : State) : headerError (s.contents .rx) =
    if s.fill .rx < 2 then some .truncated
    else if s.cell .rx 0 ≠ 0xEF#8 ∨ s.cell .rx 1 ≠ 0x01#8 then some .badHeader else none := by
  rw [headerError, State.contents_length]
  split
  next => rfl
  next hmany => rw [State.byteAt_contents (by omega), State.byteAt_contents (by omega)]

theorem lengthError_contents (s : State) : lengthError (s.contents .rx) =
    if s.fill .rx < 9 then some .truncated
    else if s.frameLength < 3 ∨ 35 < s.frameLength then some .badLength
    else if s.fill .rx < 9 + s.frameLength then some .truncated else none := by
  rw [lengthError, State.contents_length]
  split
  next => rfl
  next hmany =>
    rw [rxLength_contents (by omega), State.rxHalf_seven_toNat]
    rfl

theorem checksumError_contents (hlen : LengthPasses s) : checksumError (s.contents .rx) =
    if s.frameCalc ≠ s.frameRecv then some .checksumMismatch else none := by
  rw [checksumError, rxCalc_contents hlen, rxRecv_contents hlen]

/-! ## The first check that fails decides (R104, R105) -/

variable {code : ResultCode}

theorem decodeRaises_of_frameError (h : frameError s.addrCheckEn s.expAddr (s.contents .rx) = some code) :
    DecodeRaises code s :=
  ⟨_, exec_decode_error h, s.complete_completed code, s.complete_only code⟩

theorem decodeRaises_of_headerError (h : headerError (s.contents .rx) = some code) : DecodeRaises code s :=
  decodeRaises_of_frameError (by rw [frameError, h, Option.some_or])

theorem decodeRaises_of_lengthError (hheader : HeaderPasses s) (haddr : AddressPasses s) (hid : IdentifierPasses s)
    (h : lengthError (s.contents .rx) = some code) : DecodeRaises code s :=
  decodeRaises_of_frameError (by
    simp only [frameError, headerError_eq_none hheader, addressError_eq_none haddr, identifierError_eq_none hid, h,
      Option.none_or, Option.some_or])

theorem decodeRaises_of_checksumError (hheader : HeaderPasses s) (haddr : AddressPasses s) (hid : IdentifierPasses s)
    (hlen : LengthPasses s) (h : checksumError (s.contents .rx) = some code) : DecodeRaises code s :=
  decodeRaises_of_frameError (by
    simp only [frameError, headerError_eq_none hheader, addressError_eq_none haddr, identifierError_eq_none hid,
      lengthError_eq_none hlen, h, Option.none_or])

end Checks

/-- Settles O30: the header check comes first, so its error is what DECODE raises. -/
theorem decodeChecksTheHeader : Obligations.DecodeChecksTheHeader := by
  intro s
  refine ⟨fun hfew => ?few, fun hmany hbad => ?bad⟩
  case few => exact decodeRaises_of_headerError (by rw [headerError_contents, if_pos hfew])
  case bad => exact decodeRaises_of_headerError (by rw [headerError_contents, if_neg hmany.not_gt, if_pos hbad])

/-- Settles O33: after steps 1 to 3 the three tests of the length check, in their order. -/
theorem decodeChecksTheLength : Obligations.DecodeChecksTheLength := by
  intro s hheader haddr hid
  have hraises {code} := decodeRaises_of_lengthError (code := code) hheader haddr hid
  rw [lengthError_contents] at hraises
  refine ⟨fun hfew => ?few, fun hmany hbad => ?bad, fun hmany hmin hmax hshort => ?short⟩
  case few => exact hraises (if_pos hfew)
  case bad => exact hraises (by rw [if_neg hmany.not_gt, if_pos hbad])
  case short => exact hraises (by rw [if_neg hmany.not_gt, if_neg (by omega), if_pos hshort])

/-- Settles O34: after steps 1 to 4 only the comparison of the checksums is left. -/
theorem decodeChecksTheChecksum : Obligations.DecodeChecksTheChecksum := by
  intro s hheader haddr hid hlen hne
  exact decodeRaises_of_checksumError hheader haddr hid hlen (by rw [checksumError_contents hlen, if_pos hne])

/-! ## An accepted frame (R103) -/

theorem exists_identifier_of_identifierPasses {s : State} (h : IdentifierPasses s) :
    ∃ id : Identifier, id.byte = s.cell .rx 6 := by
  obtain ⟨-, h | h | h | h⟩ := h
  · exact ⟨.command, h.symm⟩
  · exact ⟨.data, h.symm⟩
  · exact ⟨.acknowledge, h.symm⟩
  · exact ⟨.endOfData, h.symm⟩

/-- RX_DLEN has room for the data count of every legal length. -/
theorem rxDlen_toNat_of_le {l : Nat} (h : l ≤ 35) : (BitVec.ofNat 6 (l - 3)).toNat = l - 3 :=
  Nat.mod_eq_of_lt (by omega)

/-- Nothing of the state but the six result registers, STATUS.ERR, BUSY and DONE and PENDING has changed. -/
def OnlyResultsChanged (s t : State) : Prop :=
  (∀ b, SameBuffer b s t) ∧ SameFlags s t ∧ SameConfig s t ∧ t.csumAcc = s.csumAcc ∧ t.txCsum = s.txCsum ∧
    SameOutside s t

theorem recordFrame_complete_only (s : State) (rx : List Byte) (c : ResultCode) :
    OnlyResultsChanged s ((s.recordFrame rx).complete c) := by
  obtain ⟨-, hflags, hconfig, hcsumAcc, htxCsum, -, houtside⟩ := State.complete_only (s.recordFrame rx) c
  exact ⟨fun b => ⟨by simp, fun i => by simp⟩, hflags, hconfig, hcsumAcc, htxCsum, houtside⟩

/-- Settles O35: no check finds an error, so DECODE is the record of RX's contents, whose fields are the cells'. -/
theorem decodeRecordsAnAcceptedFrame : Obligations.DecodeRecordsAnAcceptedFrame := by
  intro s haccepted
  have ⟨_, _, hidentifier, hlength, _⟩ := haccepted
  have ⟨hnine, _, hmax, havailable⟩ := hlength
  obtain ⟨id, hid⟩ := exists_identifier_of_identifierPasses hidentifier
  have hbyte : byteAt (s.contents .rx) 6 = id.byte := (State.byteAt_contents (by omega)).trans hid.symm
  have hlen : rxLength (s.contents .rx) = s.rxHalf 7 := rxLength_contents hnine
  refine ⟨_, id, exec_decode_ok (frameError_eq_none haccepted), State.complete_completed _ _, hid, ?rxId, ?rxAddr, hlen,
    ?rxCode, ?rxDlen, ?csumCalc, ?csumRecv, recordFrame_complete_only s _ _⟩
  case rxId =>
    rw [State.complete_rxId, State.recordFrame_rxId, hbyte, rxIdValue_byte, hid]
  case rxAddr => exact rxAddress_contents (by omega)
  case rxCode => rw [State.complete_rxCode, State.recordFrame_rxCode, State.byteAt_contents (by omega)]
  case rxDlen =>
    rw [State.complete_rxDlen, State.recordFrame_rxDlen, hlen, State.rxHalf_seven_toNat, rxDlen_toNat_of_le hmax]
  case csumCalc => exact (csumCalc_append _ _).trans (rxCalc_contents hlength)
  case csumRecv => exact (csumRecv_append _ _).trans (rxRecv_contents hlength)

/-! ## RX_OVF (R107) -/

/-- Settles O37: the checks and the record read RX's contents, CTRL and EXP_ADDR, none of which the flag is part of. -/
theorem decodeIgnoresReceiveOverflow : Obligations.DecodeIgnoresReceiveOverflow := by
  intro s v
  cases herr : frameError s.addrCheckEn s.expAddr (s.contents .rx) with
  | some c => exact ⟨_, exec_decode_error herr, rfl, exec_decode_error (s := { s with rxOvf := v }) herr⟩
  | none => exact ⟨_, exec_decode_ok herr, rfl, exec_decode_ok (s := { s with rxOvf := v }) herr⟩

/-! ## DECODE of an encoded frame (R108) -/

section RoundTrip

variable {addr : Word} {id : Identifier} {instr : Byte} {data : List Byte}

theorem byteAt_frameBytes_identifier : byteAt (frameBytes addr id instr data) 6 = id.byte := rfl

theorem byteAt_frameBytes_instr : byteAt (frameBytes addr id instr data) 9 = instr := rfl

theorem rxAddress_frameBytes : rxAddress (frameBytes addr id instr data) = addr := unbe32_be32 addr

theorem byteAt_frameBytes_data {k : Nat} (hk : k < data.length) :
    byteAt (frameBytes addr id instr data) (10 + k) = byteAt data k := by
  rw [Nat.add_comm 10 k]
  exact List.getD_append data _ _ k hk

variable (hd : data.length ≤ 32)

include hd

theorem rxLength_frameBytes : (rxLength (frameBytes addr id instr data)).toNat = 3 + data.length := by
  have hfield : rxLength (frameBytes addr id instr data) = lengthField data.length := unbe16_be16 _
  rw [hfield, lengthField_eq]
  exact Nat.mod_eq_of_lt (by omega)

theorem rxCalc_frameBytes : rxCalc (frameBytes addr id instr data) = frameChecksum id instr data := by
  rw [rxCalc, rxLength_frameBytes hd, show 7 + (3 + data.length) = 10 + data.length by omega,
    slice_frameBytes_checksumInput, frameChecksum]

theorem rxRecv_frameBytes : rxRecv (frameBytes addr id instr data) = frameChecksum id instr data := by
  have hpre : (be16 headerValue ++ be32 addr ++ checksumInput id instr data).length = 10 + data.length := by
    simp [checksumInput_length]
    omega
  have hbyte (j : Nat) : byteAt (frameBytes addr id instr data) (10 + data.length + j) =
      byteAt (be16 (frameChecksum id instr data)) j := by
    rw [frameBytes, byteAt, List.getD_append_right _ _ _ _ (by omega), hpre, Nat.add_sub_cancel_left, byteAt]
  rw [rxRecv, rxLength_frameBytes hd, show 7 + (3 + data.length) = 10 + data.length + 0 by omega,
    show 8 + (3 + data.length) = 10 + data.length + 1 by omega, hbyte, hbyte]
  exact unbe16_be16 _

/-- DECODE's checks find no error in a frame that ENCODE built, the address check off or expecting its address. -/
theorem frameError_frameBytes {check : Bool} {expected : Word} (ha : check = false ∨ expected = addr) :
    frameError check expected (frameBytes addr id instr data) = none := by
  have hlen := frameBytes_length addr id instr data
  have hheader : headerError (frameBytes addr id instr data) = none := by
    rw [headerError, if_neg (by omega)]
    rfl
  have haddress : addressError check expected (frameBytes addr id instr data) = none := by
    rw [addressError, if_neg (by omega), rxAddress_frameBytes, if_neg]
    rcases ha with rfl | rfl <;> simp
  have hidentifier : identifierError (frameBytes addr id instr data) = none := by
    rw [identifierError, if_neg (by omega), byteAt_frameBytes_identifier, identifierOfByte_byte]
    rfl
  have hlength : lengthError (frameBytes addr id instr data) = none := by
    rw [lengthError, rxLength_frameBytes hd, hlen, lenMin, lenMax, if_neg (by omega), if_neg (by omega),
      if_neg (by omega)]
  have hchecksum : checksumError (frameBytes addr id instr data) = none := by
    rw [checksumError, rxCalc_frameBytes hd, rxRecv_frameBytes hd]
    exact if_neg (not_not_intro rfl)
  simp only [frameError, hheader, haddress, hidentifier, hlength, hchecksum, Option.none_or]

end RoundTrip

/-! ## The way of a frame from TX to RX -/

/-- A buffer whose cells were written from index 0 holds what was written, whatever the cells held before. -/
theorem State.contents_of_writeAll {s : State} {b : Buf} {m : Memory} {bs : List Byte}
    (hcells : s.cells b = Memory.writeAll m 0 bs) (hfill : s.fill b = bs.length) : s.contents b = bs := by
  refine List.ext_getElem? fun i => ?_
  rw [State.contents_getElem?, hfill]
  by_cases hi : i < bs.length
  · simp [hi, State.cell, hcells, Memory.read_writeAll]
  · simp [hi]

theorem execAll_cons {i : Instr} {is : List Instr} {s u : State} (h : exec i s = .next u) :
    execAll (i :: is) s = execAll is u := by
  simp only [execAll, h]

/-- RX_APPENDs with room for all of them write their bytes one behind the other (R85). -/
theorem execAll_rxAppend {bs : List Byte} {s : State} (hroom : s.fill .rx + bs.length ≤ 256) :
    execAll (bs.map .rxAppend) (s.complete .ok) = .next (State.complete .ok { s with
      rx := ⟨Memory.writeAll s.rx.cells (s.fill .rx) bs, BitVec.ofNat 9 (s.fill .rx + bs.length)⟩ }) := by
  induction bs generalizing s with
  | nil =>
    have hlen : BitVec.ofNat 9 (s.fill .rx) = s.rx.len := by simp [State.fill]
    simp [execAll, Memory.writeAll, hlen]
  | cons x xs ih =>
    rw [List.length_cons] at hroom
    obtain ⟨u, hu⟩ : ∃ u : State, u =
      { s with rx := ⟨Memory.write s.rx.cells (s.fill .rx) x, BitVec.ofNat 9 (s.fill .rx + 1)⟩ } := ⟨_, rfl⟩
    have happend : exec (.rxAppend x) (s.complete .ok) = .next (u.complete .ok) :=
      hu ▸ exec_rxAppend_room (s := s.complete .ok) x (by rw [State.complete_fill]; omega)
    have hfill : u.fill .rx = s.fill .rx + 1 := hu ▸ Nat.mod_eq_of_lt (by omega)
    rw [List.map_cons, execAll_cons happend, ih (by omega), hfill, hu, List.length_cons, Nat.add_assoc,
      Nat.add_comm 1]
    rfl

/-- RX_CLEAR and RX_APPENDs of at most 256 bytes leave these bytes in RX (R84, R85). -/
theorem execAll_rxClear_rxAppend {bs : List Byte} (s : State) (hroom : bs.length ≤ 256) :
    ∃ t, execAll (.rxClear :: bs.map .rxAppend) s = .next t ∧ t.contents .rx = bs ∧ OnlyBuffersChanged s t := by
  have hcleared : State.fill { s with rx := s.rx.clear, rxOvf := false } .rx = 0 := rfl
  rw [execAll_cons (exec_rxClear s), execAll_rxAppend (by omega), hcleared, Nat.zero_add]
  exact ⟨_, rfl, State.contents_of_writeAll rfl (Nat.mod_eq_of_lt (by omega)), setBuffers_complete_only s _ _ _ _ _ _⟩

/-- ENCODE without a payload overflow leaves its frame in TX (R94). -/
theorem exec_encode_contents (id : Identifier) (instr : Byte) {s : State} (hovf : s.plOvf = false) :
    ∃ t, exec (.encode id instr) s = .next t ∧ t.contents .tx = frameBytes s.txAddr id instr (s.contents .pl) ∧
      t.txCsum = frameChecksum id instr (s.contents .pl) ∧ OnlyFrameChanged s t := by
  have hlen := frameBytes_length s.txAddr id instr (s.contents .pl)
  rw [State.contents_length] at hlen
  have hpl := s.fill_pl_lt
  refine ⟨_, exec_encode_ok id instr hovf, State.contents_of_writeAll rfl ?fill, rfl,
    commitFrame_complete_only s _ _ _ _⟩
  case fill => rw [State.complete_fill, State.commitFrame_fill_tx _ _ _ _ (by omega), hlen]

/-- Settles O38: TX holds the frame that ENCODE built, the appends write the same bytes to RX, and DECODE, which finds no
error in them, records the fields that were encoded. -/
theorem encodedFrameDecodesToItsInputs : Obligations.EncodedFrameDecodesToItsInputs := by
  intro id instr s hovf hpl haddr
  have hd : (s.contents .pl).length ≤ 32 := by rwa [State.contents_length]
  have hlen := frameBytes_length s.txAddr id instr (s.contents .pl)
  obtain ⟨s₁, hencode, htx, htxCsum, -, -, -, ⟨hcheck₁, -, hexp₁⟩, -⟩ := exec_encode_contents id instr hovf
  obtain ⟨s₂, hreceive, hrx, ⟨hcheck₂, -, hexp₂⟩, -, htxCsum₂, -⟩ :=
    execAll_rxClear_rxAppend s₁ (bs := s₁.contents .tx) (by rw [htx]; omega)
  rw [htx] at hrx
  have hdecode := exec_decode_ok (s := s₂) (by
    rw [hrx, hcheck₂, hcheck₁, hexp₂, hexp₁]
    exact frameError_frameBytes hd haddr)
  rw [hrx] at hdecode
  refine ⟨s₁, s₂, _, hencode, hreceive, hdecode, rfl, ?rxId, ?rxCode, ?rxDlen, ?data,
    rxAddress_frameBytes, ?csumRecv, ?csumCalc⟩
  case rxId =>
    rw [State.complete_rxId, State.recordFrame_rxId, byteAt_frameBytes_identifier, rxIdValue_byte]
  case rxCode => rw [State.complete_rxCode, State.recordFrame_rxCode, byteAt_frameBytes_instr]
  case rxDlen =>
    rw [State.complete_rxDlen, State.recordFrame_rxDlen, rxLength_frameBytes hd, rxDlen_toNat_of_le (by omega),
      Nat.add_sub_cancel_left, State.contents_length]
  case data =>
    intro k hk
    have hfill : s₂.fill .rx = 12 + s.fill .pl := by
      rw [← State.contents_length, hrx, hlen, State.contents_length]
    rw [State.complete_cell, State.recordFrame_cell, ← State.byteAt_contents (by omega), hrx,
      byteAt_frameBytes_data (by rwa [State.contents_length]), State.byteAt_contents hk]
  case csumRecv | csumCalc =>
    simp only [State.complete_rxCsum, State.complete_txCsum, State.recordFrame_rxCsum, State.recordFrame_txCsum,
      csumRecv_append, csumCalc_append, rxCalc_frameBytes hd, rxRecv_frameBytes hd, htxCsum₂, htxCsum]

end Sys2Proof.Machine

/-! An illegal word from its write to CMD to its completion (spec/60_exceptions.md R113). -/

namespace Sys2Proof.Machine

theorem step_of_engine_scheduled {s : State} {ts : List Turn} (h : s.schedule = .engine :: ts) :
    step s = State.engineTurn { s with schedule := ts } := by
  simp [step, State.takeTurn, h]

/-- Completion writes every field that acceptance wrote. -/
theorem issue_complete_of_idle {s : State} (w : Word) (c : ResultCode) (h : s.pending = none) :
    (s.issue w).complete c = s.complete c := by
  rw [issue_of_idle w h]; rfl

/-- Settles O8: the write is `State.issue`, which takes the illegal word into PENDING and leaves the engine's turn next; that
turn refuses it, and the completion leaves of the acceptance nothing. -/
theorem illegalWordIsAcceptedAndCompletes : Obligations.IllegalWordIsAcceptedAndCompletes := by
  intro s w ts hillegal hidle hsched
  have haccepted := issue_of_idle w hidle
  have hpending : (s.issue w).pending = some w := by rw [haccepted]
  have hnext : (s.issue w).schedule = .engine :: ts := by rw [haccepted]; exact hsched
  have hstep : step (s.issue w) = .next (State.complete .illegalCommand { s.issue w with schedule := ts }) :=
    (step_of_engine_scheduled hnext).trans (engineTurn_of_illegal hpending hillegal)
  have hcompleted : State.complete .illegalCommand { s.issue w with schedule := ts } =
      State.complete .illegalCommand { s with schedule := ts } :=
    congrArg (fun u : State => { u with schedule := ts }) (issue_complete_of_idle w .illegalCommand hidle)
  rw [hcompleted] at hstep
  exact ⟨s.issue w, _, memWrite_cmd s w, hpending, hstep, State.complete_completed _ _, State.complete_only _ _⟩

end Sys2Proof.Machine

/-! The decoder against the encoder, legal words and the command map (spec/30_encoding.md). -/

namespace Sys2Proof

/-! ## Decoding an encoded command (R56 to R59) -/

@[simp] theorem decodePlain_assembleWord (op : BitVec 4) (i : Instr) :
    decodePlain (assembleWord op 0#2 0#8) i = .ok i := by
  simp [decodePlain]

@[simp] theorem decodeByte_assembleWord (op : BitVec 4) (b : Byte) (i : Byte → Instr) :
    decodeByte (assembleWord op 0#2 b) i = .ok (i b) := by
  simp [decodeByte]

/-- Settles O1: each command's word has the OP of its row, whose form of operands reads the operand back. -/
theorem decodeOfEncodeIsTheCommand : Obligations.DecodeOfEncodeIsTheCommand := by
  intro i
  cases i <;> simp [encode, decode]

/-! ## A legal word is a command's word (R60) -/

theorem eq_assembleWord {w : Word} (hrsv0 : rsv0Of w = 0#2) (hrsv1 : rsv1Of w = 0#16) :
    w = assembleWord (opOf w) (idselOf w) (byteOf w) :=
  word_ext (by simp) (by simp) (by simpa using hrsv0) (by simp) (by simpa using hrsv1)

theorem op_cases {op : BitVec 4} (h : op.toNat < 10) :
    op = 0#4 ∨ op = 1#4 ∨ op = 2#4 ∨ op = 3#4 ∨ op = 4#4 ∨ op = 5#4 ∨ op = 6#4 ∨ op = 7#4 ∨ op = 8#4 ∨ op = 9#4 := by
  revert op
  decide

/-- The rows of R59 leave no legal word out. -/
theorem exists_encode_of_legalWord {w : Word} (h : legalWord w = true) : ∃ i, encode i = w := by
  obtain ⟨hop, ⟨hrsv0, hrsv1⟩, hidsel, hbyte⟩ := legalWord_iff.mp h
  rw [eq_assembleWord hrsv0 hrsv1]
  rcases op_cases hop with hop | hop | hop | hop | hop | hop | hop | hop | hop | hop <;>
    simp only [hop] at hidsel hbyte ⊢ <;> simp at hidsel hbyte
  · exact ⟨.nop, by rw [hidsel, hbyte]; rfl⟩
  · exact ⟨.csumClear, by rw [hidsel, hbyte]; rfl⟩
  · exact ⟨.csumFeed (byteOf w), by rw [hidsel]; rfl⟩
  · exact ⟨.plClear, by rw [hidsel, hbyte]; rfl⟩
  · exact ⟨.plAppend (byteOf w), by rw [hidsel]; rfl⟩
  · exact ⟨.encode (identifierOfSel (idselOf w)) (byteOf w), by simp [encode]⟩
  · exact ⟨.rxClear, by rw [hidsel, hbyte]; rfl⟩
  · exact ⟨.rxAppend (byteOf w), by rw [hidsel]; rfl⟩
  · exact ⟨.decode, by rw [hidsel, hbyte]; rfl⟩
  · exact ⟨.txClear, by rw [hidsel, hbyte]; rfl⟩

/-- Settles O2: the word is legal, hence some command's word, and by O1 it decodes to that command only. -/
theorem decodedWordIsTheCommandsWord : Obligations.DecodedWordIsTheCommandsWord := by
  intro w i h
  obtain ⟨j, rfl⟩ := exists_encode_of_legalWord (legalWord_of_decode_ok h)
  cases (decodeOfEncodeIsTheCommand j).symm.trans h
  rfl

/-- Settles O3: a decoded word is legal, and a legal word is a command's word, which decodes to it. -/
theorem decoderTakesExactlyLegalWords : Obligations.DecoderTakesExactlyLegalWords := by
  intro w
  constructor
  · rintro ⟨i, h⟩
    exact legalWord_of_decode_ok h
  · intro h
    obtain ⟨i, rfl⟩ := exists_encode_of_legalWord h
    exact ⟨i, decodeOfEncodeIsTheCommand i⟩

/-! ## The rows of the command map (R59) -/

/-- A masked word is compared field by field. -/
theorem and_eq_iff_fields (w m v : Word) : w &&& m = v ↔
    opOf w &&& opOf m = opOf v ∧ idselOf w &&& idselOf m = idselOf v ∧ rsv0Of w &&& rsv0Of m = rsv0Of v ∧
      byteOf w &&& byteOf m = byteOf v ∧ rsv1Of w &&& rsv1Of m = rsv1Of v := by
  simp only [opOf, idselOf, rsv0Of, byteOf, rsv1Of, ← BitVec.extractLsb'_and]
  constructor
  · rintro rfl
    exact ⟨rfl, rfl, rfl, rfl, rfl⟩
  · rintro ⟨h0, h1, h2, h3, h4⟩
    exact word_ext h0 h1 h2 h3 h4

/-- The match of a row sets OP only. -/
theorem match_fields_of_mem_commandRows : ∀ r ∈ commandRows, (opOf r.1).toNat < 10 ∧ idselOf r.1 = 0#2 ∧
    rsv0Of r.1 = 0#2 ∧ byteOf r.1 = 0#8 ∧ rsv1Of r.1 = 0#16 := by
  intro r hr
  simp only [commandRows, List.mem_cons, List.not_mem_nil, or_false] at hr
  rcases hr with rfl | rfl | rfl | rfl | rfl | rfl | rfl | rfl | rfl | rfl <;> decide

/-- The mask of a row leaves out the operand fields that its OP takes. -/
theorem mask_fields_of_mem_commandRows : ∀ r ∈ commandRows, opOf r.2 = BitVec.allOnes 4 ∧
    idselOf r.2 = (if opOf r.1 = 5#4 then 0#2 else BitVec.allOnes 2) ∧ rsv0Of r.2 = BitVec.allOnes 2 ∧
    byteOf r.2 = (if opOf r.1 ∈ [0#4, 1#4, 3#4, 6#4, 8#4, 9#4] then BitVec.allOnes 8 else 0#8) ∧
    rsv1Of r.2 = BitVec.allOnes 16 := by
  intro r hr
  simp only [commandRows, List.mem_cons, List.not_mem_nil, or_false] at hr
  rcases hr with rfl | rfl | rfl | rfl | rfl | rfl | rfl | rfl | rfl | rfl <;> decide

/-- Masked by all ones or by nothing, a field is tested or it is not. -/
theorem and_ite_allOnes_eq_zero {n : Nat} (x : BitVec n) (p : Prop) [Decidable p] :
    x &&& (if p then BitVec.allOnes n else 0#n) = 0#n ↔ x = 0#n ∨ ¬p := by
  split <;> simp [*]

theorem and_ite_zero_eq_zero {n : Nat} (x : BitVec n) (p : Prop) [Decidable p] :
    x &&& (if p then 0#n else BitVec.allOnes n) = 0#n ↔ x = 0#n ∨ p := by
  split <;> simp [*]

/-- A row selects the legal words of its OP: its mask leaves out just the operand fields that the OP takes. -/
theorem selected_iff_of_mem_commandRows {r : Word × Word} (hr : r ∈ commandRows) (w : Word) :
    w &&& r.2 = r.1 ↔ legalWord w = true ∧ opOf w = opOf r.1 := by
  obtain ⟨hop, hidsel, hrsv0, hbyte, hrsv1⟩ := match_fields_of_mem_commandRows r hr
  obtain ⟨mop, midsel, mrsv0, mbyte, mrsv1⟩ := mask_fields_of_mem_commandRows r hr
  rw [and_eq_iff_fields, mop, midsel, mrsv0, mbyte, mrsv1, hidsel, hrsv0, hbyte, hrsv1, and_ite_zero_eq_zero,
    and_ite_allOnes_eq_zero, BitVec.and_allOnes, BitVec.and_allOnes, BitVec.and_allOnes, legalWord_iff, OperandsFit]
  constructor
  · rintro ⟨heq, hid, h0, hb, h1⟩
    rw [heq]
    exact ⟨⟨hop, ⟨h0, h1⟩, hid, hb⟩, rfl⟩
  · rintro ⟨⟨-, ⟨h0, h1⟩, hid, hb⟩, heq⟩
    rw [← heq]
    exact ⟨rfl, hid, h0, hb, h1⟩

/-- The row of each OP stands at the OP's place in the list. -/
theorem filter_commandRows_op (op : BitVec 4) :
    (commandRows.filter fun r => decide (op = opOf r.1)) = (commandRows[op.toNat]?).toList := by
  revert op
  decide

/-- Settles O4: a row selects exactly the legal words of its OP, and each OP has one row. -/
theorem legalWordMatchesExactlyItsRow : Obligations.LegalWordMatchesExactlyItsRow := by
  intro w
  have hselected : rowsSelected w = commandRows.filter fun r => decide (legalWord w = true ∧ opOf w = opOf r.1) :=
    List.filter_congr fun r hr => by
      rw [Bool.eq_iff_iff, beq_iff_eq, decide_eq_true_iff]
      exact selected_iff_of_mem_commandRows hr w
  rw [hselected]
  split
  next hlegal => simpa only [hlegal, true_and] using filter_commandRows_op (opOf w)
  next hillegal => simp [hillegal]

/-- Settles O5: seventeen words, each decoded by evaluation. -/
theorem sampleWordsDecodeAsTheMapSays : Obligations.SampleWordsDecodeAsTheMapSays := by
  unfold Obligations.SampleWordsDecodeAsTheMapSays
  decide

end Sys2Proof

/-! What every step keeps: R38, the form of the cell memories, the range of the result registers (spec/10_state.md). -/

namespace Sys2Proof.Machine

/-- Settles O57: R38 (1) to (6) by the case analysis of `step_keeps_inv`. -/
theorem everyStepKeepsTheInvariants : Obligations.EveryStepKeepsTheInvariants := fun _ _ => step_keeps_inv

/-- What host writes, commands, the completion of an illegal word and the reset input keep, every step keeps, where it
does not speak of the host agent, the schedule and the draws. -/
theorem step_keeps {P : State → Prop}
    (houtside : ∀ (s : State) h ts d, P s → P { s with host := h, schedule := ts, draws := d })
    (hwrite : ∀ s u, P s → HostWrite s u → P u) (hexec : ∀ i s t, P s → exec i s = .next t → P t)
    (hillegal : ∀ s : State, P s → P (s.complete .illegalCommand)) (hreset : ∀ s : State, P s.assertReset)
    {s t : State} (hs : P s) (h : step s = .next t) : P t := by
  obtain ⟨ts, hturn⟩ := step_cases h
  have hscheduled : P { s with schedule := ts } := houtside s _ ts _ hs
  rcases hturn with hhost | hengine | rfl
  · obtain ⟨u, d, host, hw, rfl⟩ := hostTurn_cases hhost
    exact houtside u host _ d (hwrite _ u hscheduled hw)
  · rcases engineTurn_cases hengine with ⟨_, rfl⟩ | ⟨_, _, ⟨i, _, hi⟩ | ⟨_, rfl⟩⟩
    · exact hscheduled
    · exact hexec i _ t hscheduled hi
    · exact hillegal _ hscheduled
  · exact hreset _

/-! ## One buffer's cell memory (R35, R78) -/

/-- The memory is canonical, lists cells of its buffer only, and lists every cell below the fill count. -/
structure CellsOk (cap : Nat) (m : Memory) (fill : Nat) : Prop where
  canonical : Memory.wf m = true
  within_capacity : Memory.within cap m = true
  fill_bounded : fill ≤ cap
  contents_written : ∀ i, i < fill → Memory.read m i ≠ none

theorem State.cellsInv_iff {s : State} : s.CellsInv ↔ ∀ b, CellsOk (capacity b) (s.cells b) (s.fill b) :=
  ⟨fun h b => ⟨h.canonical b, h.within_capacity b, h.fill_bounded b, h.contents_written b⟩,
    fun h => ⟨fun b => (h b).canonical, fun b => (h b).within_capacity, fun b => (h b).fill_bounded,
      fun b => (h b).contents_written⟩⟩

/-- A state's three memories, one by one. -/
theorem State.cellsInv_of_each {s : State} (hpl : CellsOk 32 s.pl.cells (s.fill .pl))
    (htx : CellsOk 256 s.tx.cells (s.fill .tx)) (hrx : CellsOk 256 s.rx.cells (s.fill .rx)) : s.CellsInv :=
  cellsInv_iff.mpr fun b => match b with
    | .pl => hpl
    | .tx => htx
    | .rx => hrx

namespace CellsOk

variable {cap n : Nat} {m : Memory}

theorem nil : CellsOk cap [] 0 := ⟨Memory.wf_nil, rfl, cap.zero_le, fun _ hi => absurd hi (Nat.not_lt_zero _)⟩

theorem of_fill_eq {k : Nat} (h : CellsOk cap m n) (hk : k = n) : CellsOk cap m k := hk ▸ h

/-- The fill count is lowered to 0 and no cell is written (R80). -/
theorem clear (h : CellsOk cap m n) : CellsOk cap m 0 :=
  ⟨h.canonical, h.within_capacity, cap.zero_le, fun _ hi => absurd hi (Nat.not_lt_zero _)⟩

/-- The cell at the fill count is written and counted (R79). -/
theorem append (h : CellsOk cap m n) (hroom : n < cap) (x : Byte) : CellsOk cap (Memory.write m n x) (n + 1) where
  canonical := Memory.wf_write h.canonical n x
  within_capacity := Memory.within_write h.within_capacity hroom x
  fill_bounded := hroom
  contents_written i hi := by
    rw [Memory.read_write]
    split
    next => simp
    next hne => exact h.contents_written i (by omega)

/-- A sequence is written from cell 0 and counted (R93). -/
theorem writeAll (h : CellsOk cap m n) {bs : List Byte} (hroom : bs.length ≤ cap) :
    CellsOk cap (Memory.writeAll m 0 bs) bs.length where
  canonical := Memory.wf_writeAll h.canonical bs 0
  within_capacity := Memory.within_writeAll h.within_capacity bs (by omega)
  fill_bounded := hroom
  contents_written i hi := by simp [Memory.read_writeAll, hi]

end CellsOk

/-! ## The three buffers of a state -/

namespace State.CellsInv

variable {s t : State}

theorem of_buffers (hs : s.CellsInv) (hpl : t.pl = s.pl) (htx : t.tx = s.tx) (hrx : t.rx = s.rx) : t.CellsInv :=
  cellsInv_iff.mpr fun b => by
    rw [cells_of_buffers hpl htx hrx, fill_of_buffers hpl htx hrx]
    exact cellsInv_iff.mp hs b

theorem cellsOk (hs : s.CellsInv) (b : Buf) : CellsOk (capacity b) (s.cells b) (s.fill b) := cellsInv_iff.mp hs b

end State.CellsInv

/-- No cell is listed and nothing is counted: so after reset. -/
theorem State.cellsInv_of_empty {s : State} (hcells : ∀ b, s.cells b = []) (hfill : ∀ b, s.fill b = 0) : s.CellsInv :=
  cellsInv_iff.mpr fun b => by
    rw [hcells, hfill]
    exact .nil

/-! ## Every step keeps the cell memories -/

theorem exec_keeps_cellsInv {i : Instr} {s t : State} (hs : s.CellsInv) (h : exec i s = .next t) : t.CellsInv := by
  have hpl := hs.cellsOk .pl
  have htx := hs.cellsOk .tx
  have hrx := hs.cellsOk .rx
  cases commandEffect_of_exec h with
  | plClear => exact State.cellsInv_of_each hpl.clear htx hrx
  | txClear => exact State.cellsInv_of_each hpl htx.clear hrx
  | rxClear => exact State.cellsInv_of_each hpl htx hrx.clear
  | plAppendRoom b hroom =>
    have hcount : (BitVec.ofNat 6 (s.fill .pl + 1)).toNat = s.fill .pl + 1 := Nat.mod_eq_of_lt (by omega)
    exact State.cellsInv_of_each ((hpl.append hroom b).of_fill_eq hcount) htx hrx
  | rxAppendRoom b hroom =>
    have hcount : (BitVec.ofNat 9 (s.fill .rx + 1)).toNat = s.fill .rx + 1 := Nat.mod_eq_of_lt (by omega)
    exact State.cellsInv_of_each hpl htx ((hrx.append hroom b).of_fill_eq hcount)
  | encodeOk id b _ =>
    have hle : s.fill .pl ≤ 32 := hs.fill_bounded .pl
    have hlength : (frameBytes s.txAddr id b (s.contents .pl)).length = 12 + s.fill .pl := by
      rw [frameBytes_length, State.contents_length]
    have hroom : (frameBytes s.txAddr id b (s.contents .pl)).length ≤ 256 := by omega
    have hcount : (BitVec.ofNat 9 (12 + s.fill .pl)).toNat = 12 + s.fill .pl := Nat.mod_eq_of_lt (by omega)
    exact State.cellsInv_of_each hpl ((htx.writeAll hroom).of_fill_eq (hcount.trans hlength.symm)) hrx
  | _ => exact hs.of_buffers rfl rfl rfl

/-- A host write reaches no buffer (R44). -/
theorem HostWrite.buffers {s u : State} (h : HostWrite s u) : u.pl = s.pl ∧ u.tx = s.tx ∧ u.rx = s.rx := by
  cases h <;> exact ⟨rfl, rfl, rfl⟩

/-- Settles O58: the host writes no cell, a command keeps each buffer's memory by the law of its write, and after the
reset input no cell is listed. -/
theorem everyStepKeepsTheCellMemories : Obligations.EveryStepKeepsTheCellMemories := by
  intro s t
  refine step_keeps (fun s h ts d hs => hs.of_buffers rfl rfl rfl) (fun s u hs hwrite => ?write)
    (fun i s t => exec_keeps_cellsInv) (fun s hs => hs.of_buffers rfl rfl rfl) (fun s => ?reset)
  case write =>
    obtain ⟨hpl, htx, hrx⟩ := hwrite.buffers
    exact hs.of_buffers hpl htx hrx
  case reset => exact State.cellsInv_of_empty (fun b => by cases b <;> rfl) (fun b => by cases b <;> rfl)

/-! ## The result registers (R28, R30, R32) -/

theorem State.ResultsLegal.of_sameResults {s t : State} (hs : s.ResultsLegal) (h : SameResults s t) :
    t.ResultsLegal := by
  obtain ⟨hid, -, hflen, -, hdlen, -⟩ := h
  rw [State.ResultsLegal, hid, hflen, hdlen]
  exact hs

/-- A frame that passes the identifier check carries one of the four identifiers (R99). -/
theorem identifier_of_frameError_none {check : Bool} {a : Word} {rx : List Byte} (h : frameError check a rx = none) :
    ∃ id : Identifier, byteAt rx 6 = id.byte := by
  simp only [frameError, Option.or_eq_none_iff] at h
  obtain ⟨-, -, hidentifier, -⟩ := h
  cases hid : identifierOfByte (byteAt rx 6) with
  | some id => exact ⟨id, identifierOfByte_some hid⟩
  | none =>
    simp only [identifierError, hid, if_true] at hidentifier
    split at hidentifier <;> cases hidentifier

theorem State.resultsLegal_recordFrame (s : State) {check : Bool} {a : Word} {rx : List Byte}
    (h : frameError check a rx = none) : (s.recordFrame rx).ResultsLegal := by
  obtain ⟨id, hid⟩ := identifier_of_frameError_none h
  obtain ⟨hmin, hmax, -⟩ := length_and_checksum_of_frameError_none h
  refine .inr ⟨⟨id, ?_⟩, hmin, hmax, ?_⟩
  · rw [State.recordFrame_rxId, hid, rxIdValue_byte]
  · rw [State.recordFrame_rxDlen, rxDlen_toNat_of_le hmax]
    omega

/-- Only DECODE writes the result registers, and it records accepted frames only (R103). -/
theorem exec_keeps_resultsLegal {i : Instr} {s t : State} (hs : s.ResultsLegal) (h : exec i s = .next t) :
    t.ResultsLegal := by
  cases commandEffect_of_exec h with
  | decodeOk haccepted => exact State.resultsLegal_recordFrame s haccepted
  | _ => exact hs

theorem HostWrite.sameResults {s u : State} (h : HostWrite s u) : SameResults s u := by
  cases h <;> exact ⟨rfl, rfl, rfl, rfl, rfl, rfl⟩

/-- Settles O59: the host writes no result register, DECODE records accepted frames only, and the reset input clears
RX_ID. -/
theorem everyStepKeepsTheResultsLegal : Obligations.EveryStepKeepsTheResultsLegal := by
  intro s t
  exact step_keeps (fun s h ts d hs => hs) (fun s u hs hwrite => hs.of_sameResults hwrite.sameResults)
    (fun i s t => exec_keeps_resultsLegal) (fun s hs => hs) (fun s => .inl rfl)

/-- Settles O56: no command is pending, every fill count and RX_ID are 0 and no cell is listed, whatever the host and
the schedule hold. -/
theorem resetMeetsTheInvariants : Obligations.ResetMeetsTheInvariants := fun h ts =>
  ⟨State.inv_reset.setOutside h ts _ _,
    State.cellsInv_of_empty (fun b => by cases b <;> rfl) (fun b => by cases b <;> rfl), .inl rfl⟩

end Sys2Proof.Machine

/-! The command cycle: completion, the codes a command raises, the next acceptance, runs under any schedule, the sticky
flags and the writers of each register (spec/40_command.md, spec/60_exceptions.md, spec/10_state.md). -/

namespace Sys2Proof.Machine

/-! ## Completion (R66, R110) -/

/-- Settles O10: every command ends in `complete`. -/
theorem everyCommandCompletesOnce : Obligations.EveryCommandCompletesOnce := by
  intro i s
  obtain ⟨u, c, h⟩ := exec_complete i s
  exact ⟨u.complete c, h, rfl, rfl, rfl⟩

/-- Settles O11: the appends and ENCODE can overflow, DECODE raises what its checks raise, and every other end is OK. -/
theorem commandsRaiseOnlyTheirOwnCodes : Obligations.CommandsRaiseOnlyTheirOwnCodes := by
  intro i s t h
  cases commandEffect_of_exec h with
  | plAppendFull b => exact .inr (.inl ⟨rfl, b, .inl rfl⟩)
  | rxAppendFull b => exact .inr (.inl ⟨rfl, b, .inr (.inl rfl)⟩)
  | encodeOverflowed id b => exact .inr (.inl ⟨rfl, b, .inr (.inr ⟨id, rfl⟩)⟩)
  | decodeError c herr => exact .inr (.inr ⟨frameError_mem herr, rfl⟩)
  | _ => exact .inl rfl

/-! ## The next acceptance (R112) -/

theorem acceptsNext_of_idle {t : State} (w : Word) (h : t.pending = none) : AcceptsNext w t := by
  refine ⟨t.issue w, memWrite_cmd t w, ?_⟩
  rw [issue_of_idle w h]
  exact ⟨rfl, rfl, rfl, rfl⟩

theorem exec_pending {i : Instr} {s t : State} (h : exec i s = .next t) : t.pending = none := by
  obtain ⟨u, c, hu⟩ := exec_complete i s
  cases hu.symm.trans h
  rfl

/-- Settles O12: a completion empties PENDING, and a write to CMD with PENDING empty is accepted. -/
theorem completedBlockAcceptsTheNextWord : Obligations.CompletedBlockAcceptsTheNextWord := by
  refine ⟨fun i s t w h => acceptsNext_of_idle w (exec_pending h), fun s t v w hpending h => acceptsNext_of_idle w ?_⟩
  obtain ⟨u, c, hu⟩ := engineTurn_completes (s := s) (by simp [hpending])
  cases hu.symm.trans h
  rfl

/-! ## The engine's step (R65) -/

theorem step_of_unscheduled {s : State} {w : Word} (hpending : s.pending = some w) (h : s.schedule = []) :
    step s = s.engineTurn := by
  simp [step, State.takeTurn, h, hpending]

theorem engineTurn_of_decoded {s : State} {w : Word} {i : Instr} (hpending : s.pending = some w)
    (hw : decode w = .ok i) : s.engineTurn = exec i s := by
  simp [State.engineTurn, hpending, hw]

theorem engineTurn_of_refused {s : State} {w : Word} {e : IllegalWord} (hpending : s.pending = some w)
    (hw : decode w = .error e) : s.engineTurn = .next (s.complete .illegalCommand) := by
  simp [State.engineTurn, hpending, hw, State.illegal]

/-- Settles O7: scheduled or not, the step is the engine's turn, which runs the command or refuses the word. -/
theorem engineStepRunsThePendingCommand : Obligations.EngineStepRunsThePendingCommand := by
  intro s w hpending
  refine ⟨fun i hw => ⟨fun ts hts => ?_, fun hnil => ?_⟩, fun e he => ⟨fun ts hts => ?_, fun hnil => ?_⟩⟩
  · exact (step_of_engine_scheduled hts).trans (engineTurn_of_decoded hpending hw)
  · exact (step_of_unscheduled hpending hnil).trans (engineTurn_of_decoded hpending hw)
  · exact (step_of_engine_scheduled hts).trans (engineTurn_of_refused hpending he)
  · exact (step_of_unscheduled hpending hnil).trans (engineTurn_of_refused hpending he)

/-! ## A pending command under any schedule (R67) -/

/-- The host cannot take a pending word back. -/
theorem hostTurn_keeps_pending {s t : State} (hpending : s.pending ≠ none) (h : s.hostTurn = .next t) :
    t.pending ≠ none ∧ t.schedule = s.schedule := by
  obtain ⟨u, d, host, hw, rfl⟩ := hostTurn_cases h
  cases hw with
  | accepted v hidle => exact absurd hidle hpending
  | _ => exact ⟨hpending, rfl⟩

theorem step_of_host_scheduled {s : State} {ts : List Turn} (h : s.schedule = .host :: ts) :
    step s = State.hostTurn { s with schedule := ts } := by
  simp [step, State.takeTurn, h]

theorem run_succ_of_next {s t : State} (h : step s = .next t) (k : Nat) : core.run (k + 1) s = core.run k t := by
  simp [Host.Core.run, Host.Check.core_step, h]

theorem run_succ_of_fault {s : State} {f : Fault} (h : step s = .fault f) (k : Nat) :
    core.run (k + 1) s = .fault f := by
  simp [Host.Core.run, Host.Check.core_step, h]

/-- What R67 grants of a run of `k` steps: it faulted, or the command has completed. -/
def CompletesWithin (k : Nat) (s : State) : Prop :=
  (∃ f, core.run k s = .fault f) ∨ ∃ t, core.run k s = .next t ∧ t.pending = none ∧ t.busy = false ∧ t.done = true

theorem completesWithin_one_of_engineTurn {s u : State} (hpending : u.pending ≠ none)
    (hstep : step s = u.engineTurn) : CompletesWithin 1 s := by
  obtain ⟨v, c, hv⟩ := engineTurn_completes hpending
  exact .inr ⟨v.complete c, run_succ_of_next (hstep.trans hv) 0, rfl, rfl, rfl⟩

theorem CompletesWithin.succ {s t : State} {k : Nat} (h : CompletesWithin k t) (hstep : step s = .next t) :
    CompletesWithin (k + 1) s := by
  rwa [CompletesWithin, run_succ_of_next hstep]

/-- Settles O13, by induction on the schedule: the engine's turn completes the command, a host's turn leaves it pending
with one turn fewer to come. -/
theorem pendingCommandCompletesUnderEverySchedule : Obligations.PendingCommandCompletesUnderEverySchedule := by
  intro s hpending hreset
  generalize hts : s.schedule = ts at hreset ⊢
  induction ts generalizing s with
  | nil =>
    obtain ⟨w, hw⟩ := Option.ne_none_iff_exists'.mp hpending
    exact ⟨1, le_rfl, completesWithin_one_of_engineTurn hpending (step_of_unscheduled hw hts)⟩
  | cons turn ts ih =>
    obtain ⟨hturn, hrest⟩ := List.ne_and_not_mem_of_not_mem_cons hreset
    cases turn with
    | reset => exact absurd rfl hturn
    | engine =>
      exact ⟨1, by simp, completesWithin_one_of_engineTurn (u := { s with schedule := ts }) hpending
        (step_of_engine_scheduled hts)⟩
    | host =>
      have hstep := step_of_host_scheduled hts
      cases hhost : State.hostTurn { s with schedule := ts } with
      | refused r => exact absurd hhost (hostTurn_not_refused _ r)
      | fault f => exact ⟨1, by simp, .inl ⟨f, run_succ_of_fault (hstep.trans hhost) 0⟩⟩
      | next t =>
        obtain ⟨htpending, htschedule⟩ := hostTurn_keeps_pending (s := { s with schedule := ts }) hpending hhost
        obtain ⟨k, hk, hcompletes⟩ := ih t htpending htschedule hrest
        exact ⟨k + 1, Nat.succ_le_succ hk, CompletesWithin.succ hcompletes (hstep.trans hhost)⟩

/-! ## The sticky flags (R114, R82) -/

theorem exec_keeps_cmdOvr {i : Instr} {s t : State} (h : exec i s = .next t) : t.cmdOvr = s.cmdOvr := by
  cases commandEffect_of_exec h <;> rfl

theorem issue_keeps_cmdOvr_set {s : State} (w : Word) (h : s.cmdOvr = true) : (s.issue w).cmdOvr = true := by
  cases hpending : s.pending with
  | none => rwa [issue_of_idle w hpending]
  | some v => rw [issue_of_pending w hpending]

/-- Settles O14: no command writes CMD_OVR, and of the host's writes only the one to STATUS can clear it. -/
theorem commandOverrunStaysUntilCleared : Obligations.CommandOverrunStaysUntilCleared := by
  refine ⟨fun i s t => exec_keeps_cmdOvr, fun s t off v hset hwrite => ?_⟩
  rcases memWrite_cases hwrite with ⟨rfl, rfl⟩ | ⟨rfl, rfl⟩ | ⟨rfl, rfl⟩ | ⟨rfl, rfl⟩ | ⟨rfl, rfl⟩ | ⟨rfl, -, hoff⟩
  · simp [issue_keeps_cmdOvr_set v hset]
  · simp [hset]
  · simp [hset]
  · simp [hset]
  · simp [hset]
  · simp [hset, hoff]

theorem HostWrite.plOvf {s u : State} (h : HostWrite s u) : u.plOvf = s.plOvf := by
  cases h <;> rfl

theorem State.takeTurn_state (s : State) : ∃ ts, s.takeTurn.2 = { s with schedule := ts } := by
  unfold State.takeTurn
  split
  · exact ⟨_, rfl⟩
  · split <;> exact ⟨s.schedule, rfl⟩

/-- A step is the turn of the agent that `takeTurn` names. -/
theorem step_eq (s : State) : step s = match s.takeTurn.1 with
    | .host => s.takeTurn.2.hostTurn
    | .engine => s.takeTurn.2.engineTurn
    | .reset => .next s.takeTurn.2.assertReset := by
  unfold step
  split <;> rename_i h <;> rw [h]

/-- Settles O25: the host does not write PL_OVF, and a word at whose engine step a set flag is cleared is PL_CLEAR's. -/
theorem payloadOverflowStaysUntilPlClear : Obligations.PayloadOverflowStaysUntilPlClear := by
  intro s t hset h
  obtain ⟨ts, hts⟩ := s.takeTurn_state
  rw [step_eq, hts] at h
  cases hturn : s.takeTurn.1 with
  | reset => exact .inr (.inl rfl)
  | host =>
    rw [hturn] at h
    obtain ⟨u, d, host, hw, rfl⟩ := hostTurn_cases h
    exact .inl (hw.plOvf.trans hset)
  | engine =>
    rw [hturn] at h
    rcases engineTurn_cases h with ⟨_, rfl⟩ | ⟨w, hw, ⟨i, hi, hexec⟩ | ⟨_, rfl⟩⟩
    · exact .inl hset
    · by_cases hclear : i = .plClear
      · subst hclear
        exact .inr (.inr ⟨rfl, hw.trans (congrArg some (decodedWordIsTheCommandsWord w .plClear hi).symm)⟩)
      · exact .inl (exec_keeps_plOvf_set hclear hexec hset)
    · exact .inl hset

/-! ## Who writes what (R20 to R35) -/

section Writers

variable {i : Instr} {s t : State}

theorem exec_sameConfig (h : exec i s = .next t) : SameConfig s t := by
  cases commandEffect_of_exec h <;> exact ⟨rfl, rfl, rfl⟩

theorem exec_sameOutside (h : exec i s = .next t) : SameOutside s t := by
  cases commandEffect_of_exec h <;> exact ⟨rfl, rfl, rfl, rfl⟩

theorem exec_writes_pl (h : exec i s = .next t) : SameBuffer .pl s t ∨ i = .plClear ∨ ∃ b, i = .plAppend b := by
  cases commandEffect_of_exec h with
  | plClear => exact .inr (.inl rfl)
  | plAppendRoom b | plAppendFull b => exact .inr (.inr ⟨b, rfl⟩)
  | _ => exact .inl ⟨rfl, fun _ => rfl⟩

theorem exec_writes_tx (h : exec i s = .next t) : SameBuffer .tx s t ∨ i = .txClear ∨ ∃ id b, i = .encode id b := by
  cases commandEffect_of_exec h with
  | txClear => exact .inr (.inl rfl)
  | encodeOk id b | encodeOverflowed id b => exact .inr (.inr ⟨id, b, rfl⟩)
  | _ => exact .inl ⟨rfl, fun _ => rfl⟩

theorem exec_writes_txCsum (h : exec i s = .next t) : t.txCsum = s.txCsum ∨ ∃ id b, i = .encode id b := by
  cases commandEffect_of_exec h with
  | encodeOk id b | encodeOverflowed id b => exact .inr ⟨id, b, rfl⟩
  | _ => exact .inl rfl

theorem exec_writes_rx (h : exec i s = .next t) : SameBuffer .rx s t ∨ i = .rxClear ∨ ∃ b, i = .rxAppend b := by
  cases commandEffect_of_exec h with
  | rxClear => exact .inr (.inl rfl)
  | rxAppendRoom b | rxAppendFull b => exact .inr (.inr ⟨b, rfl⟩)
  | _ => exact .inl ⟨rfl, fun _ => rfl⟩

theorem exec_writes_results (h : exec i s = .next t) : SameResults s t ∨ i = .decode := by
  cases commandEffect_of_exec h with
  | decodeOk | decodeError => exact .inr rfl
  | _ => exact .inl ⟨rfl, rfl, rfl, rfl, rfl, rfl⟩

theorem exec_writes_csumAcc (h : exec i s = .next t) :
    t.csumAcc = s.csumAcc ∨ i = .csumClear ∨ ∃ b, i = .csumFeed b := by
  cases commandEffect_of_exec h with
  | csumClear => exact .inr (.inl rfl)
  | csumFeed b => exact .inr (.inr ⟨b, rfl⟩)
  | _ => exact .inl rfl

end Writers

/-- Settles O41: one lemma for each register or buffer: it is unchanged, or the command is a writer of it. -/
theorem eachRegisterHasItsWriters : Obligations.EachRegisterHasItsWriters := fun _ _ _ h =>
  ⟨exec_sameConfig h, exec_sameOutside h, (exec_writes_csumAcc h).resolve_left, (exec_writes_pl h).resolve_left,
    (exec_writes_tx h).resolve_left, (exec_writes_txCsum h).resolve_left, (exec_writes_rx h).resolve_left,
    (exec_writes_results h).resolve_left⟩

end Sys2Proof.Machine

/-! The host bus: what each offset of the window reads as, in an idle block and while a command is pending, what no read
changes, and the accesses that fault (spec/20_memory.md). -/

namespace Sys2Proof.Machine

/-! ## Values on the 32-bit bus -/

/-- Zeros above a field extend it. -/
theorem zero_append_eq_setWidth {m n : Nat} (x : BitVec n) : 0#m ++ x = x.setWidth (m + n) := by
  refine BitVec.eq_of_toNat_eq ?_
  rw [BitVec.toNat_append, BitVec.toNat_setWidth_of_le (Nat.le_add_left n m)]
  simp

theorem ofNat_toNat_eq_setWidth {n : Nat} (x : BitVec n) : BitVec.ofNat 32 x.toNat = x.setWidth 32 := by
  simp

/-! ## STATUS (R19) -/

theorem number_le_eight (c : ResultCode) : c.number.toNat ≤ 8 := by
  cases c <;> decide

/-- STATUS bit by bit. -/
theorem getLsbD_statusWord (s : State) (i : Nat) : s.statusWord.getLsbD i =
    if i < 1 then s.busy else if i < 2 then s.done else if i < 4 then false
    else if i < 8 then s.err.number.getLsbD (i - 4)
    else if i < 9 then s.plOvf else if i < 10 then s.rxOvf else if i < 11 then s.cmdOvr else false := by
  simp only [State.statusWord, BitVec.getLsbD_append, BitVec.getLsbD_ofBool, BitVec.getLsbD_zero]
  rcases Nat.lt_or_ge i 11 with hlow | hhigh
  · interval_cases i <;> simp
  · iterate 14 rw [if_neg (by omega)]

theorem statusWord_busy (s : State) : s.statusWord.getLsbD 0 = s.busy := getLsbD_statusWord s 0

theorem statusWord_err (s : State) : s.statusWord.extractLsb' 4 4 = s.err.number := by
  refine BitVec.eq_of_getLsbD_eq fun i hi => ?_
  rw [BitVec.getLsbD_extractLsb', getLsbD_statusWord, if_neg (by omega), if_neg (by omega), if_neg (by omega),
    if_pos (by omega), Nat.add_sub_cancel_left, decide_eq_true hi, Bool.true_and]

theorem regHidden_eq_false {s : State} {r : Reg} (h : ∀ i, r ∉ writeSetRegs i) : s.regHidden r = false := by
  unfold State.regHidden
  split
  next i _ => simpa using h i
  next => rfl

/-- STATUS, CTRL, TX_ADDR, EXP_ADDR and CAPS are in no command's write set (R46). -/
theorem readsValue_unhidden (s : State) {r : Reg} (hr : r ∈ [Reg.status, .ctrl, .txAddr, .expAddr, .caps]) :
    ReadsValue s r.offset (s.regValue r) := by
  refine readsValue_reg (regHidden_eq_false fun i => ?_)
  simp only [List.mem_cons, List.not_mem_nil, or_false] at hr
  rcases hr with rfl | rfl | rfl | rfl | rfl <;> cases i <;> simp [writeSetRegs]

/-- Settles O42: STATUS is in no write set, and its fields are the parts of the word that `statusWord` appends. -/
theorem statusReadsItsFields : Obligations.StatusReadsItsFields := by
  intro s
  refine ⟨readsValue_unhidden s (r := .status) (by simp), statusWord_busy s, ?done, ?rsv, statusWord_err s,
    number_le_eight s.err, ?plOvf, ?rxOvf, ?cmdOvr, ?high⟩
  case done | plOvf | rxOvf | cmdOvr => exact getLsbD_statusWord s _
  case rsv =>
    refine BitVec.eq_of_getLsbD_eq fun i hi => ?_
    rw [BitVec.getLsbD_extractLsb', getLsbD_statusWord, if_neg (by omega), if_neg (by omega), if_pos (by omega)]
    simp
  case high =>
    refine BitVec.eq_of_getLsbD_eq fun i hi => ?_
    rw [BitVec.getLsbD_extractLsb', getLsbD_statusWord, BitVec.getLsbD_zero]
    iterate 7 rw [if_neg (by omega)]
    exact Bool.and_false _

/-! ## An idle block (R43, R45) -/

/-- With no legal command in progress every register reads its value. -/
theorem readsValue_of_nothing_busy {s : State} (h : s.busyCommand = none) (r : Reg) :
    ReadsValue s r.offset (s.regValue r) :=
  readsValue_reg (regHidden_of_none h r)

/-- Settles O43: in an idle block every register reads its value, which has zeros above its field. -/
theorem idleRegistersReadTheirValues : Obligations.IdleRegistersReadTheirValues := by
  intro s hidle
  have hread := readsValue_of_nothing_busy (busyCommand_idle hidle)
  have hctrl : s.regValue .ctrl = if s.addrCheckEn = true then 1#32 else 0#32 := by
    cases h : s.addrCheckEn <;> simp [State.regValue, h]
  simp only [zero_append_eq_setWidth, State.fill, ofNat_toNat_eq_setWidth]
  exact ⟨hread .cmd, hread .status, hctrl ▸ hread .ctrl, hread .txAddr, hread .expAddr, hread .csumAcc, hread .plLen,
    hread .txLen, hread .txCsum, hread .rxLen, hread .rxId, hread .rxAddr, hread .rxFlen, hread .rxCode, hread .rxDlen,
    hread .rxCsum, hread .caps⟩

/-- Settles O44: no register and no window lies at these offsets. -/
theorem reservedOffsetsReadZero : Obligations.ReservedOffsetsReadZero := by
  intro s off haligned hrange
  have hadmitted : admitted off 4 = true := decide_eq_true ⟨rfl, haligned, by omega⟩
  have hwindow : windowAt off = none := by
    rw [windowAt, if_neg (by omega), if_neg (by omega), if_neg (by omega)]
  simp [ReadsValue, State.memRead, hadmitted, State.readWord, regAt_beyond (off := off) (by omega), hwindow,
    State.resolve]

/-- A window word that is in no write set reads the cell below the fill count and a draw above (R45). -/
theorem reads_window_of_unhidden {s : State} {b : Buf} {j : Nat} (hj : j < capacity b)
    (h : s.windowHidden b = false) :
    (j < s.fill b → ReadsValue s (windowOffset b j) (0#24 ++ s.cell b j)) ∧
      (s.fill b ≤ j → ReadsDraw s (windowOffset b j) 8) :=
  ⟨fun hfill => zero_append_eq_setWidth (s.cell b j) ▸ readsValue_window hj h hfill,
    fun hfill => readsDraw_window hj (.inr hfill)⟩

/-- Settles O45: an idle block hides no window word. -/
theorem idleWindowsReadCellsOrDraws : Obligations.IdleWindowsReadCellsOrDraws := fun _ b _ hidle hj =>
  reads_window_of_unhidden hj (windowHidden_of_none (busyCommand_idle hidle) b)

/-! ## While a command is pending (R46) -/

theorem busyCommand_of_decoded {s : State} {w : Word} {i : Instr} (hbusy : s.busy = true)
    (hpending : s.pending = some w) (hw : decode w = .ok i) : s.busyCommand = some i := by
  simp [State.busyCommand, hbusy, hpending, hw]

theorem readsDraw_of_writeSetRegs {s : State} {i : Instr} (h : s.busyCommand = some i) {r : Reg}
    (hr : r ∈ writeSetRegs i) : ReadsDraw s r.offset r.width :=
  readsDraw_reg (by simpa [State.regHidden, h] using hr)

theorem readsDraw_of_writeSetWindows {s : State} {i : Instr} (h : s.busyCommand = some i) {b : Buf}
    (hb : b ∈ writeSetWindows i) {j : Nat} (hj : j < capacity b) : ReadsDraw s (windowOffset b j) 8 :=
  readsDraw_window hj (.inl (by simpa [State.windowHidden, h] using hb))

/-- Settles O46: each register and window named is in the write set of the command pending. -/
theorem busyReadsOfTheWriteSetAreDraws : Obligations.BusyReadsOfTheWriteSetAreDraws := by
  intro s w i hbusy hpending hw
  have hcommand := busyCommand_of_decoded hbusy hpending hw
  have hreg {r} := readsDraw_of_writeSetRegs hcommand (r := r)
  have hwindow {b} := readsDraw_of_writeSetWindows hcommand (b := b)
  refine ⟨?csum, ?pl, ?encode, ?txClear, ?rx, ?decode⟩
  case csum =>
    rintro (rfl | ⟨b, rfl⟩)
    · exact hreg (r := .csumAcc) (.head _)
    · exact hreg (r := .csumAcc) (.head _)
  case pl =>
    rintro (rfl | ⟨b, rfl⟩)
    · exact ⟨hreg (r := .plLen) (.head _), fun j => hwindow (b := .pl) (.head _)⟩
    · exact ⟨hreg (r := .plLen) (.head _), fun j => hwindow (b := .pl) (.head _)⟩
  case encode =>
    rintro ⟨id, b, rfl⟩
    exact ⟨hreg (r := .txLen) (.head _), hreg (r := .txCsum) (by simp [writeSetRegs]),
      fun j => hwindow (b := .tx) (.head _)⟩
  case txClear =>
    rintro rfl
    exact ⟨hreg (r := .txLen) (.head _), fun j => hwindow (b := .tx) (.head _)⟩
  case rx =>
    rintro (rfl | ⟨b, rfl⟩)
    · exact ⟨hreg (r := .rxLen) (.head _), fun j => hwindow (b := .rx) (.head _)⟩
    · exact ⟨hreg (r := .rxLen) (.head _), fun j => hwindow (b := .rx) (.head _)⟩
  case decode =>
    rintro rfl
    exact ⟨hreg (r := .rxId) (by decide), hreg (r := .rxAddr) (by decide), hreg (r := .rxFlen) (by decide),
      hreg (r := .rxCode) (by decide), hreg (r := .rxDlen) (by decide), hreg (r := .rxCsum) (by decide)⟩

/-- With an illegal word pending nothing is hidden: its write set is empty. -/
theorem busyCommand_of_illegal {s : State} {w : Word} (hpending : s.pending = some w) (hw : legalWord w = false) :
    s.busyCommand = none := by
  obtain ⟨e, he⟩ := decode_error_of_illegal hw
  simp [State.busyCommand, hpending, he]

/-- With a legal word pending, only its command can hide anything. -/
theorem busyCommand_of_legal {s : State} {w : Word} {i : Instr} (hpending : s.pending = some w)
    (hw : decode w = .ok i) : s.busyCommand = none ∨ s.busyCommand = some i := by
  cases hbusy : s.busy with
  | false => exact .inl (busyCommand_idle hbusy)
  | true => exact .inr (busyCommand_of_decoded hbusy hpending hw)

theorem regHidden_of_not_mem {s : State} {w : Word} {i : Instr} (hpending : s.pending = some w)
    (hw : decode w = .ok i) {r : Reg} (hr : r ∉ writeSetRegs i) : s.regHidden r = false := by
  rcases busyCommand_of_legal hpending hw with h | h <;> simp [State.regHidden, h, hr]

theorem windowHidden_of_not_mem {s : State} {w : Word} {i : Instr} (hpending : s.pending = some w)
    (hw : decode w = .ok i) {b : Buf} (hb : b ∉ writeSetWindows i) : s.windowHidden b = false := by
  rcases busyCommand_of_legal hpending hw with h | h <;> simp [State.windowHidden, h, hb]

/-- Settles O47: NOP and illegal words have no write set, and what R46's table does not list for the pending command is
in no write set of it. -/
theorem otherBusyReadsAreCurrent : Obligations.OtherBusyReadsAreCurrent := by
  intro s
  refine ⟨fun r hr => readsValue_unhidden s hr, fun w hpending hw => ?_, fun w i hpending hw => ?_⟩
  · rcases hw with rfl | hillegal
    · have hnop := decodeOfEncodeIsTheCommand .nop
      exact ⟨fun r => readsValue_reg (regHidden_of_not_mem hpending hnop (by simp [writeSetRegs])),
        fun b j hj => reads_window_of_unhidden hj (windowHidden_of_not_mem hpending hnop (by simp [writeSetWindows]))⟩
    · have hnone := busyCommand_of_illegal hpending hillegal
      exact ⟨readsValue_of_nothing_busy hnone, fun b j hj => reads_window_of_unhidden hj (windowHidden_of_none hnone b)⟩
  · intro hidden
    have htable : hidden = (writeSetRegs i, writeSetWindows i) := by cases i <;> rfl
    rw [htable]
    exact ⟨fun r hr => readsValue_reg (regHidden_of_not_mem hpending hw hr),
      fun b j hb hj => reads_window_of_unhidden hj (windowHidden_of_not_mem hpending hw hb)⟩

/-! ## What no read changes, and the accesses that fault (R42, R51, R115) -/

/-- Settles O48: a read leaves the state, or the state with one draw used. -/
theorem readsHaveNoSideEffect : Obligations.ReadsHaveNoSideEffect := by
  intro s t off n v h
  rcases memRead_state h with rfl | rfl
  · exact ⟨fun b => ⟨rfl, fun _ => rfl⟩, rfl, rfl, rfl, rfl, rfl, .inl rfl⟩
  · refine ⟨fun b => ⟨State.fill_of_buffers rfl rfl rfl b, State.cell_congr ?_ rfl⟩, ?_, rfl, rfl, rfl, rfl, .inr rfl⟩
    · exact State.cells_of_buffers rfl rfl rfl b
    · funext r
      cases r <;> rfl

theorem busWord_of_lt {x : Nat} (s : State) (h : x < 2 ^ 32) : s.busWord x = (BitVec.ofNat 32 x, s) := if_pos h

/-- Settles O50: the access is not admitted, and the host's statement passes its fault on. -/
theorem unadmittedAccessesFault : Obligations.UnadmittedAccessesFault := by
  intro s off n v hbad
  have hadmitted : ¬admitted off n = true := by
    simp only [admitted, decide_eq_true_iff]
    omega
  have hread : s.memRead off n = .error (.busAccessFault off n) := if_neg hadmitted
  have hwrite : s.memWrite off n v = .error (.busAccessFault off n) := if_neg hadmitted
  refine ⟨hread, hwrite, fun t => ?_, ?_⟩
  · simp [State.hostStmt, State.eval, evalExpr, hread]
  · simp [State.hostStmt, State.eval, evalExpr, busWord_of_lt s v.isLt, hwrite]

/-! ## After a completion, and after reset (R53, R128, R129) -/

/-- Settles O52: a completion leaves an idle block, in which every register and cell reads its value. -/
theorem completedResultsAreVisible : Obligations.CompletedResultsAreVisible := by
  intro i s t h
  obtain ⟨u, c, hu⟩ := exec_complete i s
  cases hu.symm.trans h
  have hidle : (u.complete c).busyCommand = none := busyCommand_idle rfl
  exact ⟨readsValue_of_nothing_busy hidle, statusWord_busy _, statusWord_err _,
    fun b j hj => (reads_window_of_unhidden hj (windowHidden_of_none hidle b)).1⟩

/-- Settles O54: the block is idle after reset, and each register's value is the one that `State.reset` gives it. -/
theorem resetLeavesTheResetValues : Obligations.ResetLeavesTheResetValues := by
  have hread := readsValue_of_nothing_busy (s := State.reset) (busyCommand_idle rfl)
  refine ⟨hread .status, hread .ctrl, hread .txAddr, hread .expAddr, ?zeros, hread .caps, rfl,
    fun b => by cases b <;> rfl⟩
  case zeros =>
    simp only [List.forall_mem_cons]
    exact ⟨hread .csumAcc, hread .plLen, hread .txLen, hread .txCsum, hread .rxLen, hread .rxId, hread .rxAddr,
      hread .rxFlen, hread .rxCode, hread .rxDlen, hread .rxCsum, by simp⟩

theorem step_of_reset_scheduled {s : State} {ts : List Turn} (h : s.schedule = .reset :: ts) :
    step s = .next (State.assertReset { s with schedule := ts }) := by
  simp [step, State.takeTurn, h]

/-- Settles O55: the step is `assertReset`, which keeps of the old state the host and the schedule and counts the reset.
-/
theorem resetInputAbandonsEverything : Obligations.ResetInputAbandonsEverything := by
  intro s ts h
  refine ⟨_, step_of_reset_scheduled h, ?regs, rfl, fun b => by cases b <;> rfl, fun b i => by cases b <;> rfl,
    rfl, rfl⟩
  case regs =>
    funext r
    cases r <;> rfl

end Sys2Proof.Machine

/-! ENCODE's frame as it stands in TX, and what its inputs are (spec/43_encoder.md). -/

namespace Sys2Proof.Machine

/-! ## The frame in TX (R93, R94) -/

/-- The two ends of ENCODE: an overflowed payload, or a frame in TX. -/
theorem encode_cases {id : Identifier} {instr : Byte} {s t : State} (h : exec (.encode id instr) s = .next t) :
    (s.plOvf = true ∧ t.err = .capacityExceeded) ∨
      (s.plOvf = false ∧ t.err = .ok ∧ t.contents .tx = frameBytes s.txAddr id instr (s.contents .pl) ∧
        t.txCsum = frameChecksum id instr (s.contents .pl)) := by
  cases hovf : s.plOvf with
  | true =>
    cases (exec_encode_overflowed id instr hovf).symm.trans h
    exact .inl ⟨rfl, rfl⟩
  | false =>
    obtain ⟨u, hu, htx, htxCsum, -⟩ := exec_encode_contents id instr hovf
    cases hu.symm.trans h
    cases (exec_encode_ok id instr hovf).symm.trans h
    exact .inr ⟨rfl, rfl, htx, htxCsum⟩

/-- What a buffer's contents determine. -/
theorem State.fill_and_cell_of_contents_eq {s t : State} {b : Buf} (h : t.contents b = s.contents b) :
    t.fill b = s.fill b ∧ ∀ k, k < t.fill b → t.cell b k = s.cell b k := by
  have hfill : t.fill b = s.fill b := by rw [← State.contents_length, h, State.contents_length]
  refine ⟨hfill, fun k hk => ?_⟩
  rw [← State.byteAt_contents hk, h, State.byteAt_contents (hfill ▸ hk)]

/-! ## The source's Packet invariants (R96) -/

theorem map_byteAt_range (bs : List Byte) : (List.range bs.length).map (byteAt bs) = bs :=
  List.ext_getElem (by simp) fun i hi _ => by
    have hlt : i < bs.length := by simpa using hi
    simp [byteAt, hlt]

/-- The instruction byte and the data stand in a row from offset 9. -/
theorem map_byteAt_frameBytes (addr : Word) (id : Identifier) (instr : Byte) (data : List Byte) :
    (List.range (1 + data.length)).map (fun j => byteAt (frameBytes addr id instr data) (9 + j)) = instr :: data := by
  rw [Nat.add_comm, List.range_succ_eq_map, List.map_cons, List.map_map]
  congr 1
  conv_rhs => rw [← map_byteAt_range data]
  refine List.map_congr_left fun k hk => ?_
  rw [← byteAt_frameBytes_data (List.mem_range.mp hk)]
  exact congrArg (byteAt _) (by omega)

/-- Settles O28: TX holds the frame byte by byte, its Length and Checksum fields are those that DECODE would read. -/
theorem encodedFrameMeetsPacketInvariants : Obligations.EncodedFrameMeetsPacketInvariants := by
  intro id instr s t hpl h hok c d
  obtain ⟨-, herr⟩ | ⟨-, -, htx, -⟩ := encode_cases h
  · cases hok.symm.trans herr
  have hdata : (s.contents .pl).length = d := State.contents_length s .pl
  have hd : (s.contents .pl).length ≤ 32 := hdata ▸ hpl
  generalize s.contents .pl = data at htx hdata hd
  have hfill : t.fill .tx = 12 + d := by
    rw [← State.contents_length, htx, frameBytes_length, hdata]
  have hcell : ∀ k, k < 12 + d → c k = byteAt (frameBytes s.txAddr id instr data) k := fun k hk => by
    rw [← htx, State.byteAt_contents (hfill ▸ hk)]
  have hlength := rxLength_frameBytes (addr := s.txAddr) (id := id) (instr := instr) hd
  have hchecksum := rxRecv_frameBytes (addr := s.txAddr) (id := id) (instr := instr) hd
  rw [rxRecv, hlength, hdata, show 7 + (3 + d) = 10 + d by omega, show 8 + (3 + d) = 11 + d by omega] at hchecksum
  refine ⟨hcell 0 (by omega), hcell 1 (by omega), hcell 6 (by omega), ?length, ?checksum⟩
  case length =>
    rw [hcell 7 (by omega), hcell 8 (by omega), show 1 + d + 2 = 3 + d by omega, ← hdata, ← hlength, rxLength]
  case checksum =>
    have hpayload : (List.range (1 + d)).map (fun j => c (9 + j)) = instr :: data := by
      rw [← map_byteAt_frameBytes s.txAddr id instr data, hdata]
      exact List.map_congr_left fun j hj => hcell _ (by have := List.mem_range.mp hj; omega)
    rw [hpayload, hcell (10 + d) (by omega), hcell (11 + d) (by omega), hchecksum, frameChecksum, csum16_toNat,
      hcell 6 (by omega), hcell 7 (by omega), hcell 8 (by omega), checksumInput_eq id instr hd, frameBytes_eq _ _ _ hd]
    simp only [byteSum_cons, Nat.add_assoc]
    rfl

/-! ## Equal inputs, equal results (R95) -/

/-- Settles O29: the frame and its checksum are functions of TX_ADDR and PL's contents, and PL_OVF decides the end. -/
theorem encodeDependsOnItsInputsOnly : Obligations.EncodeDependsOnItsInputsOnly := by
  intro id instr s₁ s₂ t₁ t₂ hovf haddr hfill hcells h₁ h₂
  have hpl : s₂.contents .pl = s₁.contents .pl := State.contents_congr hfill.symm fun k hk => (hcells k hk).symm
  obtain ⟨hset₁, herr₁⟩ | ⟨hset₁, herr₁, htx₁, hcsum₁⟩ := encode_cases h₁ <;>
    obtain ⟨hset₂, herr₂⟩ | ⟨hset₂, herr₂, htx₂, hcsum₂⟩ := encode_cases h₂
  · exact ⟨herr₁.trans herr₂.symm, fun hok => by cases hok.symm.trans herr₁⟩
  · simp [hovf, hset₂] at hset₁
  · simp [hovf, hset₂] at hset₁
  · obtain ⟨htxLen, htxCells⟩ := State.fill_and_cell_of_contents_eq (s := t₂) (t := t₁) (b := .tx) (by
      rw [htx₁, htx₂, haddr, hpl])
    exact ⟨herr₁.trans herr₂.symm, fun _ => ⟨htxLen, by rw [hcsum₁, hcsum₂, hpl], htxCells⟩⟩

/-! ## TX_ADDR and a pending ENCODE (R47) -/

theorem memWrite_txAddr (s : State) (a : Word) : s.memWrite Reg.txAddr.offset 4 a = .ok { s with txAddr := a } :=
  memWrite_of_admitted (admitted_offset .txAddr) (writeWord_txAddr s a)

theorem getElem?_frameBytes_address (addr : Word) (id : Identifier) (instr : Byte) (data : List Byte) {k : Nat}
    (hk : k < 4) : (frameBytes addr id instr data)[2 + k]? = (be32 addr)[k]? := by
  interval_cases k <;> rfl

/-- ENCODE sends TX_ADDR in offsets 2 to 5. -/
theorem encode_address {id : Identifier} {instr : Byte} {s : State} (hovf : s.plOvf = false) :
    ∃ t, exec (.encode id instr) s = .next t ∧ ∀ k, k < 4 → some (t.cell .tx (2 + k)) = (be32 s.txAddr)[k]? := by
  obtain ⟨t, ht, htx, -⟩ := exec_encode_contents id instr hovf
  refine ⟨t, ht, fun k hk => ?_⟩
  have hlen := congrArg List.length htx
  rw [State.contents_length, frameBytes_length] at hlen
  rw [← getElem?_frameBytes_address s.txAddr id instr (s.contents .pl) hk, ← htx, State.contents_getElem?,
    if_pos (by omega)]

/-- Settles O51: the write changes TX_ADDR and nothing else, so ENCODE sends it where it comes after, and where it came
before the frame stays. -/
theorem pendingEncodeSeesTheAddressWrittenBefore : Obligations.PendingEncodeSeesTheAddressWrittenBefore := by
  intro id instr a s u hovf hwrite
  cases (memWrite_txAddr s a).symm.trans hwrite
  refine ⟨encode_address (s := { s with txAddr := a }) hovf, ?_⟩
  obtain ⟨t, ht, haddress⟩ := encode_address (id := id) (instr := instr) hovf
  exact ⟨t, { t with txAddr := a }, ht, memWrite_txAddr t a, rfl, haddress⟩

end Sys2Proof.Machine

/-! DECODE's address and identifier checks, bytes behind the frame, and flipped bits (spec/44_decoder.md). -/

namespace Sys2Proof.Machine

/-! ## Steps 2 and 3 (R98, R99) -/

section Checks

variable {s : State} {code : ResultCode}

theorem addressError_contents (s : State) : addressError s.addrCheckEn s.expAddr (s.contents .rx) =
    if s.fill .rx < 6 then some .truncated
    else if s.addrCheckEn = true ∧ s.frameAddress ≠ s.expAddr then some .addressMismatch else none := by
  rw [addressError, State.contents_length]
  split
  next => rfl
  next hmany => rw [rxAddress_contents (by omega)]

theorem identifierError_contents (s : State) : identifierError (s.contents .rx) =
    if s.fill .rx < 7 then some .truncated
    else if s.cell .rx 6 ∉ [0x01#8, 0x02#8, 0x07#8, 0x08#8] then some .unknownIdentifier else none := by
  rw [identifierError, State.contents_length]
  split
  next => rfl
  next hmany => simp only [State.byteAt_contents (s := s) (b := .rx) (i := 6) (by omega), identifierOfByte_eq_none]

theorem decodeRaises_of_addressError (hheader : HeaderPasses s)
    (h : addressError s.addrCheckEn s.expAddr (s.contents .rx) = some code) : DecodeRaises code s :=
  decodeRaises_of_frameError (by
    simp only [frameError, headerError_eq_none hheader, h, Option.none_or, Option.some_or])

theorem decodeRaises_of_identifierError (hheader : HeaderPasses s) (haddr : AddressPasses s)
    (h : identifierError (s.contents .rx) = some code) : DecodeRaises code s :=
  decodeRaises_of_frameError (by
    simp only [frameError, headerError_eq_none hheader, addressError_eq_none haddr, h, Option.none_or, Option.some_or])

end Checks

/-- Settles O31: after step 1 the two tests of the address check, in their order. -/
theorem decodeChecksTheAddress : Obligations.DecodeChecksTheAddress := by
  intro s hheader
  have hraises {code} := decodeRaises_of_addressError (code := code) hheader
  rw [addressError_contents] at hraises
  refine ⟨fun hfew => hraises (if_pos hfew), fun hmany hcheck hne => hraises ?_⟩
  rw [if_neg hmany.not_gt, if_pos ⟨hcheck, hne⟩]

/-- Settles O32: after steps 1 and 2 the two tests of the identifier check, in their order. -/
theorem decodeChecksTheIdentifier : Obligations.DecodeChecksTheIdentifier := by
  intro s hheader haddr
  have hraises {code} := decodeRaises_of_identifierError (code := code) hheader haddr
  rw [identifierError_contents] at hraises
  refine ⟨fun hfew => hraises (if_pos hfew), fun hmany hbad => hraises ?_⟩
  rw [if_neg hmany.not_gt, if_pos hbad]

/-! ## Bytes behind the frame (R106) -/

section Trailing

variable {p : List Byte}

theorem byteAt_append (q : List Byte) {i : Nat} (h : i < p.length) : byteAt (p ++ q) i = byteAt p i :=
  List.getD_append _ _ _ _ h

theorem slice_append (q : List Byte) {i j : Nat} (h : j ≤ p.length) : slice (p ++ q) i j = slice p i j := by
  refine List.ext_getElem? fun k => ?_
  simp only [slice, List.getElem?_take, List.getElem?_drop]
  split
  next hk => rw [List.getElem?_append_left (by omega)]
  next => rfl

variable (q : List Byte)

theorem rxAddress_append (h : 6 ≤ p.length) : rxAddress (p ++ q) = rxAddress p := by
  simp only [rxAddress, byteAt_append q (show 2 < p.length by omega), byteAt_append q (show 3 < p.length by omega),
    byteAt_append q (show 4 < p.length by omega), byteAt_append q (show 5 < p.length by omega)]

theorem rxLength_append (h : 9 ≤ p.length) : rxLength (p ++ q) = rxLength p := by
  rw [rxLength, byteAt_append q (by omega), byteAt_append q (by omega), rxLength]

variable (hwhole : 9 + (rxLength p).toNat ≤ p.length)

include hwhole

theorem rxRecv_append : rxRecv (p ++ q) = rxRecv p := by
  rw [rxRecv, rxLength_append q (by omega), byteAt_append q (by omega), byteAt_append q (by omega), rxRecv]

theorem rxCalc_append : rxCalc (p ++ q) = rxCalc p := by
  rw [rxCalc, rxLength_append q (by omega), slice_append q (by omega), rxCalc]

/-- Each check reads the bytes of the frame only, once all of them are there. -/
theorem frameError_append (check : Bool) (expected : Word) :
    frameError check expected (p ++ q) = frameError check expected p := by
  have hlong : ¬p.length < 9 + (rxLength p).toNat ∧ ¬(p ++ q).length < 9 + (rxLength p).toNat := by
    rw [List.length_append]
    omega
  have hshort (n : Nat) (hn : n ≤ 9) : ¬p.length < n ∧ ¬(p ++ q).length < n := by omega
  have hbyte (i : Nat) (hi : i < 9) : byteAt (p ++ q) i = byteAt p i := byteAt_append q (by omega)
  have hheader : headerError (p ++ q) = headerError p := by
    simp only [headerError, hshort 2 (by omega), hbyte 0 (by omega), hbyte 1 (by omega)]
  have haddress : addressError check expected (p ++ q) = addressError check expected p := by
    simp only [addressError, hshort 6 (by omega), rxAddress_append q (show 6 ≤ p.length by omega)]
  have hidentifier : identifierError (p ++ q) = identifierError p := by
    simp only [identifierError, hshort 7 (by omega), hbyte 6 (by omega)]
  have hlength : lengthError (p ++ q) = lengthError p := by
    simp only [lengthError, hshort 9 (by omega), rxLength_append q (show 9 ≤ p.length by omega), hlong]
  have hchecksum : checksumError (p ++ q) = checksumError p := by
    rw [checksumError, checksumError, rxCalc_append q hwhole, rxRecv_append q hwhole]
  simp only [frameError, hheader, haddress, hidentifier, hlength, hchecksum]

theorem recordFrame_append (hcode : 0 < (rxLength p).toNat) (s : State) :
    s.recordFrame (p ++ q) = s.recordFrame p := by
  simp only [State.recordFrame, byteAt_append q (show 6 < p.length by omega),
    rxAddress_append q (show 6 ≤ p.length by omega), rxLength_append q (show 9 ≤ p.length by omega),
    byteAt_append q (show 9 < p.length by omega), rxCalc_append q hwhole, rxRecv_append q hwhole]

end Trailing

/-- DECODE of an RX that begins with `p`, which is at least a whole frame, is a function of `p`, CTRL, EXP_ADDR and the
old result registers. -/
theorem decode_of_contents_append {s₁ s₂ t₁ t₂ : State} {p q₁ q₂ : List Byte} (h₁ : s₁.contents .rx = p ++ q₁)
    (h₂ : s₂.contents .rx = p ++ q₂) (hwhole : 9 + (rxLength p).toNat ≤ p.length) (hconfig : SameConfig s₁ s₂)
    (hresults : SameResults s₁ s₂) (ht₁ : exec .decode s₁ = .next t₁) (ht₂ : exec .decode s₂ = .next t₂) :
    t₁.err = t₂.err ∧ SameResults t₁ t₂ := by
  obtain ⟨hcheck, -, hexpected⟩ := hconfig
  have herror₁ : frameError s₁.addrCheckEn s₁.expAddr (s₁.contents .rx) = frameError s₁.addrCheckEn s₁.expAddr p := by
    rw [h₁, frameError_append q₁ hwhole]
  have herror₂ : frameError s₂.addrCheckEn s₂.expAddr (s₂.contents .rx) = frameError s₁.addrCheckEn s₁.expAddr p := by
    rw [h₂, frameError_append q₂ hwhole, hcheck, hexpected]
  cases herr : frameError s₁.addrCheckEn s₁.expAddr p with
  | some code =>
    cases (exec_decode_error (herror₁.trans herr)).symm.trans ht₁
    cases (exec_decode_error (herror₂.trans herr)).symm.trans ht₂
    exact ⟨rfl, hresults⟩
  | none =>
    obtain ⟨hmin, -, -⟩ := length_and_checksum_of_frameError_none herr
    cases (exec_decode_ok (herror₁.trans herr)).symm.trans ht₁
    cases (exec_decode_ok (herror₂.trans herr)).symm.trans ht₂
    rw [h₁, h₂, recordFrame_append q₁ hwhole (by omega), recordFrame_append q₂ hwhole (by omega)]
    exact ⟨rfl, rfl, rfl, rfl, rfl, rfl, rfl⟩

theorem State.take_contents_congr {s t : State} {b : Buf} {n : Nat} (hs : n ≤ s.fill b) (ht : n ≤ t.fill b)
    (h : ∀ i, i < n → s.cell b i = t.cell b i) : (t.contents b).take n = (s.contents b).take n := by
  refine List.ext_getElem? fun i => ?_
  simp only [List.getElem?_take, State.contents_getElem?]
  split
  next hi => rw [if_pos (by omega), if_pos (by omega), h i hi]
  next => rfl

/-- Settles O36: both RX begin with the same 9 + L bytes. -/
theorem decodeIgnoresTrailingBytes : Obligations.DecodeIgnoresTrailingBytes := by
  intro s₁ s₂ t₁ t₂ hfill₁ hfill₂ hcells hconfig hresults ht₁ ht₂
  have h₁ := (List.take_append_drop (9 + s₁.frameLength) (s₁.contents .rx)).symm
  have h₂ := (List.take_append_drop (9 + s₁.frameLength) (s₂.contents .rx)).symm
  rw [State.take_contents_congr hfill₁ hfill₂ hcells] at h₂
  refine decode_of_contents_append h₁ h₂ ?_ hconfig hresults ht₁ ht₂
  have hlen : ((s₁.contents .rx).take (9 + s₁.frameLength)).length = 9 + s₁.frameLength := by simp; omega
  have hfield := rxLength_contents (s := s₁) (by omega)
  rw [h₁, rxLength_append _ (by omega)] at hfield
  rw [hlen, hfield, State.rxHalf_seven_toNat]

end Sys2Proof.Machine

/-! What DECODE reports of an accepted frame with one bit flipped (spec/44_decoder.md R109). -/

namespace Sys2Proof.Machine

/-! ## Fields and bytes -/

theorem flip_ne (b : Byte) (k : Fin 8) : b ^^^ BitVec.twoPow 8 k.val ≠ b := by
  intro h
  have hpos : 0 < 2 ^ k.val := Nat.two_pow_pos k
  rcases flip_toNat b k with hflip | hflip <;> rw [h] at hflip <;> omega

theorem unbe16_inj {a b c d : Byte} (h : unbe16 a b = unbe16 c d) : a = c ∧ b = d := by
  have htoNat := congrArg BitVec.toNat h
  rw [unbe16_toNat, unbe16_toNat] at htoNat
  have hb := b.isLt
  have hd := d.isLt
  exact ⟨BitVec.eq_of_toNat_eq (by omega), BitVec.eq_of_toNat_eq (by omega)⟩

theorem toNat_append_byte {n : Nat} (x : BitVec n) (b : Byte) : (x ++ b).toNat = x.toNat * 256 + b.toNat := by
  rw [BitVec.toNat_append, ← Nat.shiftLeft_add_eq_or_of_lt b.isLt, Nat.shiftLeft_eq]

theorem unbe32_toNat (a b c d : Byte) :
    (unbe32 a b c d).toNat = ((a.toNat * 256 + b.toNat) * 256 + c.toNat) * 256 + d.toNat := by
  simp only [unbe32, toNat_append_byte]

theorem unbe32_inj {a b c d a' b' c' d' : Byte} (h : unbe32 a b c d = unbe32 a' b' c' d') :
    a = a' ∧ b = b' ∧ c = c' ∧ d = d' := by
  have htoNat := congrArg BitVec.toNat h
  rw [unbe32_toNat, unbe32_toNat] at htoNat
  have := b.isLt
  have := c.isLt
  have := d.isLt
  have := b'.isLt
  have := c'.isLt
  have := d'.isLt
  exact ⟨BitVec.eq_of_toNat_eq (by omega), BitVec.eq_of_toNat_eq (by omega), BitVec.eq_of_toNat_eq (by omega),
    BitVec.eq_of_toNat_eq (by omega)⟩

/-- No identifier byte becomes another one by one flipped bit. -/
theorem flip_identifier_not_mem (id : Identifier) (k : Fin 8) :
    id.byte ^^^ BitVec.twoPow 8 k.val ∉ [0x01#8, 0x02#8, 0x07#8, 0x08#8] := by
  revert k
  cases id <;> decide

/-- A sequence with one bit flipped in its byte `j` has another checksum. -/
theorem csum16_map_range_ne {f g : Nat → Byte} {n j : Nat} {k : Fin 8} (hj : j < n)
    (hflip : f j = g j ^^^ BitVec.twoPow 8 k.val) (hsame : ∀ i, i ≠ j → f i = g i) :
    csum16 ((List.range n).map f) ≠ csum16 ((List.range n).map g) := by
  obtain ⟨m, rfl⟩ : ∃ m, n = j + (m + 1) := ⟨n - j - 1, by omega⟩
  have hbefore : (List.range j).map f = (List.range j).map g :=
    List.map_congr_left fun i hi => hsame i (by have := List.mem_range.mp hi; omega)
  have hafter : (List.range m).map (fun i => f (j + (i + 1))) = (List.range m).map fun i => g (j + (i + 1)) :=
    List.map_congr_left fun i _ => hsame _ (by omega)
  have hsplit (h : Nat → Byte) : (List.range (j + (m + 1))).map h =
      (List.range j).map h ++ h j :: (List.range m).map fun i => h (j + (i + 1)) := by
    simp [List.range_add, List.range_succ_eq_map, Function.comp_def]
  rw [hsplit, hsplit, hbefore, hafter, hflip]
  exact csum16_flip_ne _ _ _ _

/-! ## What a flipped bit leaves as it was -/

namespace RxBitFlipped

variable {s u : State} {i : Nat} {k : Fin 8} (h : RxBitFlipped i k s u)

include h

theorem fill_eq : u.fill .rx = s.fill .rx := h.1

theorem cell_flipped : u.cell .rx i = s.cell .rx i ^^^ BitVec.twoPow 8 k.val := h.2.1

theorem cell_same {j : Nat} (hj : j ≠ i) : u.cell .rx j = s.cell .rx j := h.2.2.1 j hj

theorem sameConfig : SameConfig s u := h.2.2.2

theorem cell_ne : u.cell .rx i ≠ s.cell .rx i := h.cell_flipped ▸ flip_ne _ _

theorem headerPasses (hi : 2 ≤ i) (hs : HeaderPasses s) : HeaderPasses u := by
  rwa [HeaderPasses, h.fill_eq, h.cell_same (by omega), h.cell_same (by omega)]

theorem frameAddress_eq (hi : 6 ≤ i) : u.frameAddress = s.frameAddress := by
  simp only [State.frameAddress, h.cell_same (show 2 ≠ i by omega), h.cell_same (show 3 ≠ i by omega),
    h.cell_same (show 4 ≠ i by omega), h.cell_same (show 5 ≠ i by omega)]

theorem frameAddress_ne (hlow : 2 ≤ i) (hhigh : i < 6) : u.frameAddress ≠ s.frameAddress := by
  intro heq
  obtain ⟨h2, h3, h4, h5⟩ := unbe32_inj heq
  interval_cases i
  · exact h.cell_ne h2
  · exact h.cell_ne h3
  · exact h.cell_ne h4
  · exact h.cell_ne h5

theorem addressPasses (hi : 6 ≤ i) (hs : AddressPasses s) : AddressPasses u := by
  obtain ⟨hcheck, -, hexpected⟩ := h.sameConfig
  rwa [AddressPasses, h.fill_eq, h.frameAddress_eq hi, hcheck, hexpected]

theorem identifierPasses (hi : i ≠ 6) (hs : IdentifierPasses s) : IdentifierPasses u := by
  rwa [IdentifierPasses, h.fill_eq, h.cell_same hi.symm]

theorem frameLength_eq (hi : i ≠ 7 ∧ i ≠ 8) : u.frameLength = s.frameLength := by
  rw [State.frameLength, State.rxHalf, h.cell_same hi.1.symm, h.cell_same hi.2.symm]
  rfl

theorem lengthPasses (hi : i ≠ 7 ∧ i ≠ 8) (hs : LengthPasses s) : LengthPasses u := by
  rwa [LengthPasses, h.fill_eq, h.frameLength_eq hi]

/-- Before and behind the bytes it covers, a flipped bit does not change the checksum computed. -/
theorem frameCalc_eq (hlen : i ≠ 7 ∧ i ≠ 8) (hi : i < 6 ∨ 7 + s.frameLength ≤ i) : u.frameCalc = s.frameCalc := by
  rw [State.frameCalc, h.frameLength_eq hlen]
  refine congrArg csum16 (List.map_congr_left fun j hj => h.cell_same ?_)
  have := List.mem_range.mp hj
  omega

theorem frameCalc_ne (hlen : i ≠ 7 ∧ i ≠ 8) (hlow : 6 ≤ i) (hhigh : i < 7 + s.frameLength) :
    u.frameCalc ≠ s.frameCalc := by
  rw [State.frameCalc, h.frameLength_eq hlen]
  have hplace : 6 + (i - 6) = i := by omega
  refine csum16_map_range_ne (j := i - 6) (k := k) (by omega) ?_ fun j hj => h.cell_same (by omega)
  rw [hplace]
  exact h.cell_flipped

theorem frameRecv_eq (hlen : i ≠ 7 ∧ i ≠ 8) (hi : i < 7 + s.frameLength) : u.frameRecv = s.frameRecv := by
  rw [State.frameRecv, h.frameLength_eq hlen, State.rxHalf, h.cell_same (by omega), h.cell_same (by omega)]
  rfl

theorem frameRecv_ne (hlen : i ≠ 7 ∧ i ≠ 8) (hlow : 7 + s.frameLength ≤ i) (hhigh : i < 9 + s.frameLength) :
    u.frameRecv ≠ s.frameRecv := by
  intro heq
  rw [State.frameRecv, h.frameLength_eq hlen] at heq
  obtain ⟨hfirst, hsecond⟩ := unbe16_inj heq
  obtain rfl | rfl : i = 7 + s.frameLength ∨ i = 7 + s.frameLength + 1 := by omega
  · exact h.cell_ne hfirst
  · exact h.cell_ne hsecond

end RxBitFlipped

/-! ## The reports -/

/-- Settles O40: steps 1 to 4 pass as before; in step 6 the flipped bit changes one of the two checksums compared and
not the other. -/
theorem flippedPayloadOrChecksumBitIsReported : Obligations.FlippedPayloadOrChecksumBitIsReported := by
  intro s u i k ⟨hheader, haddr, hid, hlen, hsum⟩ h hlow hhigh
  have hfield : i ≠ 7 ∧ i ≠ 8 := by omega
  refine decodeChecksTheChecksum u (h.headerPasses (by omega) hheader) (h.addressPasses (by omega) haddr)
    (h.identifierPasses (by omega) hid) (h.lengthPasses hfield hlen) ?_
  rcases Nat.lt_or_ge i (7 + s.frameLength) with hpayload | hchecksum
  · rw [h.frameRecv_eq hfield hpayload, ← hsum]
    exact h.frameCalc_ne hfield (by omega) hpayload
  · rw [h.frameCalc_eq hfield (.inr hchecksum), hsum]
    exact (h.frameRecv_ne hfield hchecksum hhigh).symm

theorem decode_ok_of_frameAccepted {s : State} (h : FrameAccepted s) :
    ∃ t, exec .decode s = .next t ∧ t.err = .ok ∧ t.rxAddr = s.frameAddress := by
  obtain ⟨t, -, ht, ⟨hok, -⟩, -, -, haddr, -⟩ := decodeRecordsAnAcceptedFrame s h
  exact ⟨t, ht, hok, haddr⟩

section Head

variable {s u : State} {i : Nat} {k : Fin 8} (hs : FrameAccepted s) (h : RxBitFlipped i k s u)

include hs h

theorem header_flipped (hi : i < 2) : DecodeRaises .badHeader u := by
  obtain ⟨⟨hfill, h0, h1⟩, -⟩ := hs
  refine (decodeChecksTheHeader u).2 (h.fill_eq ▸ hfill) ?_
  interval_cases i
  · exact .inl (h0 ▸ h.cell_ne)
  · exact .inr (h1 ▸ h.cell_ne)

theorem address_flipped_checked (hlow : 2 ≤ i) (hhigh : i < 6) (hcheck : s.addrCheckEn = true) :
    DecodeRaises .addressMismatch u := by
  obtain ⟨hheader, ⟨hfill, haddr⟩, -⟩ := hs
  obtain ⟨hcheck', -, hexpected⟩ := h.sameConfig
  refine (decodeChecksTheAddress u (h.headerPasses hlow hheader)).2 (h.fill_eq ▸ hfill) (hcheck'.trans hcheck) ?_
  rw [hexpected, ← haddr hcheck]
  exact h.frameAddress_ne hlow hhigh

theorem address_flipped_unchecked (hlow : 2 ≤ i) (hhigh : i < 6) (hcheck : s.addrCheckEn = false) :
    ∃ t, exec .decode u = .next t ∧ t.err = .ok ∧ t.rxAddr = u.frameAddress ∧ t.rxAddr ≠ s.frameAddress := by
  obtain ⟨hheader, ⟨hfill, -⟩, hid, hlen, hsum⟩ := hs
  have hfield : i ≠ 7 ∧ i ≠ 8 := by omega
  have hunchecked : u.addrCheckEn = false := h.sameConfig.1.trans hcheck
  have haccepted : FrameAccepted u :=
    ⟨h.headerPasses hlow hheader, ⟨h.fill_eq ▸ hfill, fun hon => by simp [hunchecked] at hon⟩,
      h.identifierPasses (by omega) hid, h.lengthPasses hfield hlen, by
        rw [h.frameCalc_eq hfield (.inl hhigh), h.frameRecv_eq hfield (by omega), hsum]⟩
  obtain ⟨t, ht, hok, haddr⟩ := decode_ok_of_frameAccepted haccepted
  exact ⟨t, ht, hok, haddr, haddr ▸ h.frameAddress_ne hlow hhigh⟩

theorem identifier_flipped (hi : i = 6) : DecodeRaises .unknownIdentifier u := by
  obtain ⟨hheader, haddr, hid, -⟩ := hs
  refine (decodeChecksTheIdentifier u (h.headerPasses (by omega) hheader) (h.addressPasses (by omega) haddr)).2
    (h.fill_eq ▸ hid.1) ?_
  obtain ⟨id, hbyte⟩ := exists_identifier_of_identifierPasses hid
  subst hi
  rw [h.cell_flipped, ← hbyte]
  exact flip_identifier_not_mem id k

/-- A legal length has a zero high byte, so the flipped one is at least 256. -/
theorem length_high_flipped (hi : i = 7) : 35 < u.frameLength := by
  obtain ⟨-, -, -, ⟨-, -, hmax, -⟩, -⟩ := hs
  subst hi
  have hne : (u.cell .rx 7).toNat ≠ (s.cell .rx 7).toNat := fun heq => h.cell_ne (BitVec.eq_of_toNat_eq heq)
  rw [State.frameLength, State.rxHalf, unbe16_toNat] at hmax ⊢
  omega

/-- The checks that come before the length check pass as before. -/
theorem length_reached (hi : 7 ≤ i) :
    HeaderPasses u ∧ AddressPasses u ∧ IdentifierPasses u ∧ 9 ≤ u.fill .rx := by
  obtain ⟨hheader, haddr, hid, hlen, -⟩ := hs
  exact ⟨h.headerPasses (by omega) hheader, h.addressPasses (by omega) haddr, h.identifierPasses (by omega) hid,
    h.fill_eq ▸ hlen.1⟩

end Head

/-- Settles O39: the flipped byte is the first that a check finds wrong, and what comes before it passes as before;
behind a flipped low length byte the length check and the checksum decide. -/
theorem flippedHeadBitsAreReported : Obligations.FlippedHeadBitsAreReported := by
  intro s u i k hs h
  refine ⟨header_flipped hs h, address_flipped_checked hs h, address_flipped_unchecked hs h, identifier_flipped hs h,
    fun hi => ?high, fun hi => ?low⟩
  case high =>
    obtain ⟨hheader, haddr, hid, hfill⟩ := length_reached hs h hi.ge
    exact (decodeChecksTheLength u hheader haddr hid).2.1 hfill (.inr (length_high_flipped hs h hi))
  case low =>
    obtain ⟨hheader, haddr, hid, hfill⟩ := length_reached hs h (by omega)
    obtain ⟨-, hbad, hshort⟩ := decodeChecksTheLength u hheader haddr hid
    refine ⟨hbad hfill, hshort hfill, fun hmin hmax hwhole => ?_⟩
    have hlen : LengthPasses u := ⟨hfill, hmin, hmax, hwhole⟩
    refine ⟨decodeChecksTheChecksum u hheader haddr hid hlen, fun hsum => ?_⟩
    obtain ⟨t, ht, hok, -⟩ := decode_ok_of_frameAccepted ⟨hheader, haddr, hid, hlen, hsum⟩
    exact ⟨t, ht, hok⟩

end Sys2Proof.Machine

/-! The host agent: its statements at its turn (spec/30_encoding.md section 3). -/

namespace Sys2Proof.Machine

/-- At the host's turn the step is its next statement. -/
theorem step_of_host_statement {s : State} {ts : List Turn} {st : HostStmt} (hsched : s.schedule = .host :: ts)
    (hst : s.host.program[s.host.pc]? = some st) : step s = State.hostStmt st { s with schedule := ts } := by
  rw [step_of_host_scheduled hsched]
  simp only [State.hostTurn, hst]

/-! ## The statements (R61) -/

section Statements

variable {s : State}

theorem hostStmt_rd {off : HostExpr} {v : HostVar} {r : Word × State} (h : s.memRead (s.eval off) 4 = .ok r) :
    s.hostStmt (rd off v) = .next (r.2.setHostVar v r.1.toNat).advance := by
  simp only [State.hostStmt, rd, h]

/-- A value of 32 bits goes to the bus as it is. -/
theorem hostStmt_wr {off e : HostExpr} {t : State} (hvalue : s.eval e < 2 ^ 32)
    (h : s.memWrite (s.eval off) 4 (BitVec.ofNat 32 (s.eval e)) = .ok t) :
    s.hostStmt (wr off e) = .next t.advance := by
  simp only [State.hostStmt, wr, busWord_of_lt s hvalue, h]

/-- What a branch taken to `l` does (log entry 12). -/
def BranchTaken (l : HostLabel) (s : State) (r : Result) : Prop :=
  (∀ k, s.host.program.findIdx? (fun x => x == .label l) = some k →
    r = .next { s with host := { s.host with pc := k } }) ∧
    (s.host.program.findIdx? (fun x => x == .label l) = none → r = .fault (.hostLabelUndefined l))

theorem branch_taken (l : HostLabel) (s : State) : BranchTaken l s (s.branch l) :=
  ⟨fun k hk => by simp only [State.branch, hk], fun hnone => by simp only [State.branch, hnone]⟩

theorem hostStmt_bnz (a b : HostExpr) (l : HostLabel) :
    s.hostStmt (.bnz a b l) = if s.eval a &&& s.eval b ≠ 0 then s.branch l else .next s.advance := rfl

theorem hostStmt_blt (a b : HostExpr) (l : HostLabel) :
    s.hostStmt (.blt a b l) = if s.eval a < s.eval b then s.branch l else .next s.advance := rfl

end Statements

/-- Settles O53: the step is the statement's meaning; a branch is `State.branch` or the next line by its own test. -/
theorem hostTurnExecutesItsStatement : Obligations.HostTurnExecutesItsStatement := by
  intro s ts st hsched hst s'
  have hstep : step s = s'.hostStmt st := step_of_host_statement hsched hst
  rw [hstep]
  refine ⟨?rd, ?wr, ?set, ?label, ?branches⟩
  case rd =>
    rintro off v r rfl hread
    exact hostStmt_rd hread
  case wr =>
    rintro off e t rfl hvalue hwrite
    exact hostStmt_wr hvalue hwrite
  case set =>
    rintro v e rfl
    rfl
  case label =>
    rintro l rfl
    rfl
  case branches =>
    rintro a b l (rfl | rfl)
    · simp only [hostStmt_bnz, true_and, reduceCtorEq, false_and, or_false]
      split
      next => exact branch_taken l s'
      next => rfl
    · simp only [hostStmt_blt, true_and, reduceCtorEq, false_and, false_or]
      split
      next => exact branch_taken l s'
      next => rfl

end Sys2Proof.Machine
